-- ==== Sys2Proof/Word.lean ====
section
/-! DEFINITION. The widths of the values the block treats as bits (spec 00_scope.md R12: unsigned, bit 0 least significant). -/

namespace Sys2Proof

/-- A 32-bit command word or control register (R22, R70). -/
abbrev Word := BitVec 32

/-- A byte of the source memory, or one 8-bit output channel (R30, R31). -/
abbrev Byte := BitVec 8

/-- A 16-bit packed palette entry (R88). -/
abbrev Entry := BitVec 16

/-- A 4-bit index or channel: palette index, pixel index, `r4`, `g4`, `b4` (R15, R34). -/
abbrev Nibble := BitVec 4

end Sys2Proof
end

