-- ==== Sys2Proof/Syntax.lean ====
section
/-! DEFINITION. The block's ten commands, one constructor per row of the opcode table (R78), with their operand fields at
the widths the formats give them (R72 to R76). -/

namespace Sys2Proof

/-- A decoded command word. Operand order is the assembler's: row before column, palette before colour index (R83). -/
inductive Instr where
  /-- NOP, format N (R105). -/
  | nop
  /-- VALID, format N: check SRC_LEN (R106). -/
  | valid
  /-- RSCB y, format Y: resolve a scanline selector (R124). -/
  | rscb (y : BitVec 8)
  /-- UNPK y, x, format YX: unpack one pixel index (R144). -/
  | unpk (y : BitVec 8) (x : BitVec 9)
  /-- PFET p, c, format PC: fetch one palette word (R168). -/
  | pfet (p c : Nibble)
  /-- ASMB e, format E: assemble a colour from an entry value (R169). -/
  | asmb (e : Entry)
  /-- DPIX y, x, format YX: decode one pixel (R192). -/
  | dpix (y : BitVec 8) (x : BitVec 9)
  /-- DLIN y, format Y: decode one scanline (R193). -/
  | dlin (y : BitVec 8)
  /-- DFRM, format N: decode the whole frame (R194). -/
  | dfrm
  /-- ACK, format N: clear the status (R107). -/
  | ack
  deriving DecidableEq, Repr

end Sys2Proof
end

