-- ==== Sys2Proof/Decode.lean ====
section
/-! DEFINITION. Decoding a command word by the opcode map (R78, R81), and encoding a command (R82). -/

namespace Sys2Proof

/-- Why a word is ILLEGAL (R79, R80). Both reasons raise the same error, ILLEGAL_CMD (R224). -/
inductive Illegal where
  /-- `OP` is 0xA to 0xF (R79). -/
  | reservedOpcode
  /-- A bit no field of the format uses is 1 (R80). -/
  | reservedBits
  deriving DecidableEq, Repr

/-! ## The fields of a command word (R71 to R77) -/

/-- `OP`, bits 3:0 (R71). -/
def opField (w : Word) : BitVec 4 := w.extractLsb' 0 4

/-- `Y`, bits 11:4 (R73, R74). -/
def yField (w : Word) : BitVec 8 := w.extractLsb' 4 8

/-- `X`, bits 20:12 (R74). -/
def xField (w : Word) : BitVec 9 := w.extractLsb' 12 9

/-- `P`, bits 7:4 (R75). -/
def pField (w : Word) : Nibble := w.extractLsb' 4 4

/-- `C`, bits 11:8 (R75). -/
def cField (w : Word) : Nibble := w.extractLsb' 8 4

/-- `ENTRY`, bits 31:16 (R76). -/
def entryField (w : Word) : Entry := w.extractLsb' 16 16

/-! ## The opcode map (R78) -/

/-- One row of the opcode map: OP, mnemonic, match, mask, and the command its fields spell. -/
structure OpcodeRow where
  op       : BitVec 4
  mnemonic : String
  pattern  : Word
  mask     : Word
  build    : Word → Instr

/-- The ten rows of R78, in the table's order. -/
def opcodeRows : List OpcodeRow :=
  [ ⟨0x0, "NOP",   0x00000000, 0xFFFFFFFF, fun _ => .nop⟩,
    ⟨0x1, "VALID", 0x00000001, 0xFFFFFFFF, fun _ => .valid⟩,
    ⟨0x2, "RSCB",  0x00000002, 0xFFFFF00F, fun w => .rscb (yField w)⟩,
    ⟨0x3, "UNPK",  0x00000003, 0xFFE0000F, fun w => .unpk (yField w) (xField w)⟩,
    ⟨0x4, "PFET",  0x00000004, 0xFFFFF00F, fun w => .pfet (pField w) (cField w)⟩,
    ⟨0x5, "ASMB",  0x00000005, 0x0000FFFF, fun w => .asmb (entryField w)⟩,
    ⟨0x6, "DPIX",  0x00000006, 0xFFE0000F, fun w => .dpix (yField w) (xField w)⟩,
    ⟨0x7, "DLIN",  0x00000007, 0xFFFFF00F, fun w => .dlin (yField w)⟩,
    ⟨0x8, "DFRM",  0x00000008, 0xFFFFFFFF, fun _ => .dfrm⟩,
    ⟨0x9, "ACK",   0x00000009, 0xFFFFFFFF, fun _ => .ack⟩ ]

/-- The decoder of R81, total over all words: the row of the word's OP, accepted when the masked word matches. -/
def decode (w : Word) : Except Illegal Instr :=
  match opcodeRows.find? (fun r => r.op == opField w) with
  | none => .error .reservedOpcode
  | some r => if w &&& r.mask = r.pattern then .ok (r.build w) else .error .reservedBits

/-! ## Encoding (R82) -/

/-- `encN(op) = op`. -/
def encN (op : BitVec 4) : Word := op.setWidth 32

/-- `encY(op, y) = op | (y << 4)`. -/
def encY (op : BitVec 4) (y : BitVec 8) : Word := op.setWidth 32 ||| y.setWidth 32 <<< 4

/-- `encYX(op, y, x) = op | (y << 4) | (x << 12)`. -/
def encYX (op : BitVec 4) (y : BitVec 8) (x : BitVec 9) : Word :=
  op.setWidth 32 ||| y.setWidth 32 <<< 4 ||| x.setWidth 32 <<< 12

/-- `encPC(op, p, c) = op | (p << 4) | (c << 8)`. -/
def encPC (op : BitVec 4) (p c : Nibble) : Word :=
  op.setWidth 32 ||| p.setWidth 32 <<< 4 ||| c.setWidth 32 <<< 8

/-- `encE(op, e) = op | (e << 16)`. -/
def encE (op : BitVec 4) (e : Entry) : Word := op.setWidth 32 ||| e.setWidth 32 <<< 16

/-- The command word of a command (R82). -/
def encode : Instr → Word
  | .nop => encN 0x0
  | .valid => encN 0x1
  | .rscb y => encY 0x2 y
  | .unpk y x => encYX 0x3 y x
  | .pfet p c => encPC 0x4 p c
  | .asmb e => encE 0x5 e
  | .dpix y x => encYX 0x6 y x
  | .dlin y => encY 0x7 y
  | .dfrm => encN 0x8
  | .ack => encN 0x9

/-! ## The opcode table's own numbering -/

/-- The command word whose low `nbits` bits are `w`'s and whose other bits are 0. A command is one 32-bit word written
whole (R57, R70), so the table's bit numbers are the word's. -/
def tableWord (nbits w : Nat) : Word := BitVec.ofNat 32 (w % 2 ^ nbits)

/-- What the decoder reads from the opcode table's `nbits` bits `w`. -/
def decodeTableWord (nbits w : Nat) : Option Instr :=
  (decode (tableWord nbits w)).toOption

end Sys2Proof
end

