-- ==== Sys2Proof/Config.lean ====
section
/-! DEFINITION. The block's constants (R9), the types of its two parameters (R10), and the one free value. -/

namespace Sys2Proof.Config

/-- SRC_SIZE of R9: bytes of the source memory, and the only SRC_LEN that lets a command read it (R104). -/
@[simp] abbrev srcSize : Nat := 32768

/-- WIDTH of R9, in pixels. -/
@[simp] abbrev width : Nat := 320

/-- HEIGHT of R9, in scanlines. -/
@[simp] abbrev height : Nat := 200

/-- ROW_BYTES of R9: bitmap bytes per scanline. -/
@[simp] abbrev rowBytes : Nat := 160

/-- SCB_BASE of R9: the address of scanline 0's selector byte. -/
@[simp] abbrev scbBase : Nat := 32000

/-- PAL_BASE of R9: the address of palette word 0's low byte. -/
@[simp] abbrev palBase : Nat := 32256

/-- NPIX of R9: the number of OUT cells. -/
@[simp] abbrev npix : Nat := 64000

/-- FREE VALUE. Which pending pixel the engine's next pixel step takes, where the state's schedule does not say it
(R14, R195, R197: "the choice is free"). Applied to the counter `State.draws`. Nothing is known of it. -/
opaque freePick : Nat → Nat

/-- The lowest bit position of a 4-bit channel in a 16-bit palette entry: "one of 0, 4, 8 and 12" (R10). -/
inductive NibblePos where
  | p0 | p4 | p8 | p12
  deriving DecidableEq, Repr

/-- The bit position a `NibblePos` names. -/
@[simp] def NibblePos.bit : NibblePos → Nat
  | .p0 => 0
  | .p4 => 4
  | .p8 => 8
  | .p12 => 12

/-- `CHAN_LAYOUT = (rLo, gLo, bLo)` (R10). -/
structure ChanLayout where
  rLo : NibblePos
  gLo : NibblePos
  bLo : NibblePos
  deriving DecidableEq, Repr

/-- "the three values are distinct" (R10). -/
def ChanLayout.distinct (l : ChanLayout) : Bool :=
  l.rLo != l.gLo && l.rLo != l.bLo && l.gLo != l.bLo

/-- The two parameters of R10, which the read-only CONFIG register reports (R28). -/
structure Params where
  outAlpha : Bool
  layout   : ChanLayout
  deriving DecidableEq, Repr

/-- The spec's default of R10: `OUT_ALPHA = true`, `CHAN_LAYOUT = (8, 4, 0)`.
PRESUMED (log entry 1): the spec marks that layout "from general knowledge, not in source". -/
def Params.specDefault : Params where
  outAlpha := true
  layout := { rLo := .p8, gLo := .p4, bLo := .p0 }

end Sys2Proof.Config
end

