-- ==== Sys2Proof/Machine/State.lean ====
section
/-! DEFINITION. Everything the spec gives the machine: the control registers, the two memories, the engine's hidden state, the
model's FAULT set, and the two agents' side of the run (the host's remaining program and the scheduler's turns). -/

namespace Sys2Proof.Machine

/-! ## Faults, refusals and error codes -/

/-- What a broken host contract names (R270). -/
inductive HazardTarget where
  /-- The source address written while BUSY = 1. -/
  | src (a : Nat)
  /-- SRC_LEN, written while BUSY = 1. -/
  | srcLen
  deriving DecidableEq, Repr

/-- The model's fault records (R35, R228). They are not hardware errors and never appear in STATUS. The spec's steps ADD a
record to `State.faults`; `step` answers with a record, as its stopping fault, in every state that holds a `HOST_HAZARD` (the
model "refuses the run", R270) and, for the other records, where no agent has a step left in a run that has failed (R277,
log entry 6). All are SAFE: a claim's premise is that FAULT is empty. -/
inductive Fault where
  /-- `UNWRITTEN_SRC(a)`: an engine step read SRC cell `a`, which nothing has written since reset (R52). Raised by the
  commands that read SRC and by the pixel step. Safe. -/
  | unwrittenSrc (a : Nat)
  /-- `UNWRITTEN_OUT(k)`: the host read OUT cell `k`, which nothing has written since reset (R56). Safe. -/
  | unwrittenOut (k : Nat)
  /-- `HOST_SRC_RANGE(a)`: the host wrote SRC at `a >= 32768` (R53). Safe. -/
  | hostSrcRange (a : Nat)
  /-- `HOST_OUT_RANGE(o)`: the host read OUT at byte offset `o >= 64000 * BPP` (R56). Safe. -/
  | hostOutRange (o : Nat)
  /-- `HOST_OUT_WRITE(o)`: the host wrote OUT (R56). Safe. -/
  | hostOutWrite (o : Nat)
  /-- `HOST_CTRL_ACCESS(offset, width)`: a control access not of 32 bits, not 4-byte aligned, or at 0x100 or above (R59).
  Safe. -/
  | hostCtrlAccess (offset width : Nat)
  /-- `HOST_HAZARD(target)`: the host wrote SRC or SRC_LEN while BUSY = 1. The run is refused from then on (R270): every
  later step answers this fault. Safe. -/
  | hostHazard (target : HazardTarget)
  deriving DecidableEq, Repr

/-- Why a command has no meaning. Every command of the opcode table has one, so nothing raises this. -/
inductive Refusal where
  /-- The command of that mnemonic is not modelled. Raised by no arm of `exec`. Safe. -/
  | notModelled (mnemonic : String)
  deriving DecidableEq, Repr

/-- The errors a command can end with (R220). -/
inductive ErrCode where
  /-- FMT_SIZE: `SRC_LEN != 32768` (R222). -/
  | fmtSize
  /-- ILLEGAL_CMD: reserved opcode or reserved bit (R224). -/
  | illegalCmd
  /-- ARG_RANGE: `Y >= 200` or `X >= 320` (R223). -/
  | argRange
  deriving DecidableEq, Repr

/-! ## The registers and memories -/

/-- The STATUS fields (R24). Bits 31:8 read 0 and are no storage. -/
structure Status where
  busy    : Bool
  done    : Bool
  err     : Bool
  ovr     : Bool
  errCode : Nibble
  deriving DecidableEq, Repr

/-- One OUT cell's colour (R31). The alpha byte is the constant 0xFF and is not stored. -/
structure Rgb where
  r : Byte
  g : Byte
  b : Byte
  deriving DecidableEq, Repr

/-- A pixel position `(y, x)` (R32). -/
structure Pixel where
  y : Nat
  x : Nat
  deriving DecidableEq, Repr

/-- A sparse memory: address and content pairs, addresses strictly rising; an unlisted address holds no value (⊥). -/
abbrev Cells (α : Type) := List (Nat × α)

/-- SRC (R30): a list of `Host.Cell`s. -/
abbrev Memory := Cells Byte

/-- OUT (R31): one colour per pixel number. -/
abbrev Raster := Cells Rgb

/-! ## The host and the scheduler -/

/-- The host's atomic actions (R20, R84). -/
inductive HostAction where
  /-- `HostSrcWrite(a, v)` (R53). -/
  | srcWrite (a : Nat) (v : Byte)
  /-- A write of `v` to the control window, `width` bits wide (R22, R57). -/
  | ctrlWrite (offset width : Nat) (v : Word)
  /-- A read of the control window, `width` bits wide (R22, R57). -/
  | ctrlRead (offset width : Nat)
  /-- `HostOutRead(k)`: read pixel `k` whole (R56). -/
  | outReadPixel (k : Nat)
  /-- A read of one byte of OUT (R56). -/
  | outReadByte (o : Nat)
  /-- A write of one byte to OUT, which is not admitted (R56). -/
  | outWrite (o : Nat) (v : Byte)
  /-- Assert the reset input (R260). -/
  | reset
  /-- `WAIT`: read STATUS; go on to the next action only when `BUSY = 0` (R84). -/
  | wait
  deriving DecidableEq, Repr

/-- What a host read returns (R56, R57). -/
inductive HostData where
  /-- A control register's 32 bits. -/
  | word (v : Word)
  /-- The `BPP` bytes of one OUT cell, in order. -/
  | pixel (bytes : List Byte)
  /-- One byte of OUT. -/
  | byte (v : Byte)
  deriving DecidableEq, Repr

/-- One decision of the scheduler (R20): which agent moves, and, for the engine, which pending pixel a pixel step takes
(R195): the one at position `pick` modulo their number. -/
inductive Turn where
  | host
  | engine (pick : Nat)
  deriving DecidableEq, Repr

/-! ## The state -/

/-- The state of the block (R22 to R36) and of the run it is in. -/
structure State where
  /-- CONFIG, as the two parameters it reports (R10, R28). No step changes it. -/
  config   : Config.Params
  /-- STATUS (R24). -/
  status   : Status
  /-- SRC_LEN (R26). -/
  srcLen   : Word
  /-- RESULT (R27). -/
  result   : Word
  /-- SRC (R30). -/
  src      : Memory
  /-- OUT (R31). -/
  out      : Raster
  /-- CUR, the accepted command word (R32). -/
  cur      : Option Word
  /-- PEND, the pixels a line or frame command has still to write (R32): in row-major order, without repeats. -/
  pend     : List Pixel
  /-- FAULT, the model's fault records (R35): without repeats, oldest first. -/
  faults   : List Fault
  /-- The host's actions still to come (R11, R277: "the host program"). -/
  prog     : List HostAction
  /-- The scheduler's decisions still to come (R20). When it is empty, the agents go on by the fair rule of `step`. -/
  turns    : List Turn
  /-- How many free pixel choices have been drawn: the argument of `Config.freePick` (the model's own field). -/
  draws    : Nat
  /-- What the host's last read returned; `none` if it has read nothing, or the read returned nothing. -/
  readData : Option HostData
  deriving DecidableEq, Repr

/-- STATUS after reset: 0x00000000 (R36). -/
def Status.reset : Status where
  busy := false
  done := false
  err := false
  ovr := false
  errCode := 0

/-- The machine right after reset (R36), with the spec's default parameters (R10), no host program, no scheduled turn and
an empty FAULT. -/
def State.reset : State where
  config := Config.Params.specDefault
  status := Status.reset
  srcLen := 0
  result := 0
  src := []
  out := []
  cur := none
  pend := []
  faults := []
  prog := []
  turns := []
  draws := 0
  readData := none

end Sys2Proof.Machine
end

