-- ==== Sys2Proof/Machine/Flags.lean ====
section
/-! DEFINITION. The STATUS and CONFIG registers: the words the host reads, and every way STATUS changes (R24, R28). STATUS is
the block's only flag register. -/

namespace Sys2Proof.Machine

/-- A 1-bit field placed at bit `n` of a 32-bit register. -/
def bitAt (b : Bool) (n : Nat) : Word := (BitVec.ofBool b).setWidth 32 <<< n

/-- A 4-bit field placed at bits `n + 3` down to `n` of a 32-bit register. -/
def nibbleAt (v : Nibble) (n : Nat) : Word := v.setWidth 32 <<< n

/-- The 32-bit STATUS word (R24): BUSY, DONE, ERR, OVR in bits 0 to 3, ERRCODE in bits 7:4, bits 31:8 zero. -/
def Status.word (st : Status) : Word :=
  bitAt st.busy 0 ||| bitAt st.done 1 ||| bitAt st.err 2 ||| bitAt st.ovr 3 ||| nibbleAt st.errCode 4

/-- The error's code (R220). -/
def ErrCode.code : ErrCode → Nibble
  | .fmtSize => 1
  | .illegalCmd => 2
  | .argRange => 3

/-- STATUS at accept (R101): BUSY set; DONE, ERR and ERRCODE cleared; OVR kept. -/
def Status.accept (st : Status) : Status :=
  { st with busy := true, done := false, err := false, errCode := 0 }

/-- STATUS when a command write is dropped (R102). -/
def Status.overrun (st : Status) : Status := { st with ovr := true }

/-- STATUS when a command other than ACK completes (R103): ERR, ERRCODE and OVR kept. -/
def Status.complete (st : Status) : Status := { st with busy := false, done := true }

/-- STATUS when ACK completes (R107, R103): OVR cleared, BUSY cleared, DONE not set. -/
def Status.completeAck (st : Status) : Status := { st with busy := false, ovr := false }

/-- STATUS when a command ends with error `e` (R221): DONE and OVR kept. -/
def Status.raise (e : ErrCode) (st : Status) : Status :=
  { st with busy := false, err := true, errCode := e.code }

/-- A channel position as CONFIG reports it: the bit position over 4, in two bits (R28). -/
def posField (p : Config.NibblePos) : Word := BitVec.ofNat 32 (p.bit / 4)

/-- The 32-bit CONFIG word (R28). -/
def configWord (c : Config.Params) : Word :=
  bitAt c.outAlpha 0 ||| posField c.layout.rLo <<< 4 ||| posField c.layout.gLo <<< 6 ||| posField c.layout.bLo <<< 8

end Sys2Proof.Machine
end

