-- ==== Sys2Proof/WellFormed.lean ====
section
/-! DEFINITION. Which commands have legal operands (R77): "Only Y and X have illegal values". -/

namespace Sys2Proof

/-- A legal scanline operand: `Y < 200` (R77, R223). -/
def legalY (y : BitVec 8) : Bool := decide (y.toNat < Config.height)

/-- A legal column operand: `X < 320` (R77, R223). -/
def legalX (x : BitVec 9) : Bool := decide (x.toNat < Config.width)

/-- The operands are legal (R77). A command that is not well-formed still encodes and still runs: it raises ARG_RANGE
(R83, R223). -/
def Instr.WellFormed : Instr → Bool
  | .nop => true
  | .valid => true
  | .rscb y => legalY y
  | .unpk y x => legalY y && legalX x
  | .pfet _ _ => true
  | .asmb _ => true
  | .dpix y x => legalY y && legalX x
  | .dlin y => legalY y
  | .dfrm => true
  | .ack => true

end Sys2Proof
end

