-- ==== Sys2Proof/Machine/Operands.lean ====
section
/-! DEFINITION. The addresses a command's operands name, the RESULT layouts (R86), and the pixel sets of the line and frame
commands. -/

namespace Sys2Proof.Machine

/-! ## Addresses -/

/-- The address of scanline `y`'s selector byte (R85). -/
def scbAddr (y : Nat) : Nat := Config.scbBase + y

/-- `byteIndex(y, x)`: the address of the bitmap byte of pixel `(y, x)` (R141). -/
def byteIndex (y x : Nat) : Nat := y * Config.rowBytes + x / 2

/-- `k = 16 * p + c`: the number of a palette word (R161). -/
def paletteIndex (p c : Nibble) : Nat := 16 * p.toNat + c.toNat

/-- The address of the low byte of palette word `(p, c)` (R161). -/
def paletteLoAddr (p c : Nibble) : Nat := Config.palBase + 2 * paletteIndex p c

/-- The address of the high byte of palette word `(p, c)` (R161). -/
def paletteHiAddr (p c : Nibble) : Nat := paletteLoAddr p c + 1

/-- The OUT cell of pixel `(y, x)`, row-major (R31). -/
def pixelNumber (p : Pixel) : Nat := p.y * Config.width + p.x

/-! ## RESULT layouts (R86) -/

/-- A raw byte in bits 15:8 and a 4-bit index in bits 3:0: RSCB and UNPK. -/
def resultOfByteIndex (raw : Byte) (index : Nibble) : Word := raw.setWidth 32 <<< 8 ||| index.setWidth 32

/-- A palette word in bits 15:0: PFET. -/
def resultOfEntry (e : Entry) : Word := e.setWidth 32

/-- Red, green, blue and 0xFF from bit 0 up: ASMB and DPIX, "whatever `OUT_ALPHA` is". -/
def resultOfRgb (c : Rgb) : Word :=
  c.r.setWidth 32 ||| c.g.setWidth 32 <<< 8 ||| c.b.setWidth 32 <<< 16 ||| 0xFF000000

/-! ## Pixel sets (R193, R194) -/

/-- The 320 positions of scanline `y`. -/
def rowPixels (y : Nat) : List Pixel := (List.range Config.width).map (fun x => ⟨y, x⟩)

/-- All 64,000 positions. -/
def framePixels : List Pixel := (List.range Config.height).flatMap rowPixels

/-- The positions a command has to write, one per pixel step: those of a legal DLIN and of DFRM, none for any other. -/
def commandPixels : Instr → List Pixel
  | .nop => []
  | .valid => []
  | .rscb _ => []
  | .unpk _ _ => []
  | .pfet _ _ => []
  | .asmb _ => []
  | .dpix _ _ => []
  | .dlin y => if legalY y then rowPixels y.toNat else []
  | .dfrm => framePixels
  | .ack => []

/-! ## The byte image of OUT (R55) -/

/-- `BPP`: bytes per output pixel. -/
def bytesPerPixel (c : Config.Params) : Nat := if c.outAlpha then 4 else 3

/-- The bytes of one pixel: R, G, B, and 0xFF when `OUT_ALPHA`. -/
def pixelBytes (c : Config.Params) (px : Rgb) : List Byte :=
  if c.outAlpha then [px.r, px.g, px.b, 0xFF] else [px.r, px.g, px.b]

end Sys2Proof.Machine
end

