-- ==== Sys2Proof/Machine/Ops.lean ====
section
/-! DEFINITION. The shared operations: the sparse memories, FAULT, the life cycle of a command (accept, overrun, complete,
raise) and the checks of the first engine step (R108). -/

namespace Sys2Proof.Machine

/-! ## Sparse memories -/

/-- What a cell holds; `none` is ⊥ (R30, R31). -/
def Cells.read {α : Type} : Cells α → Nat → Option α
  | [], _ => none
  | (b, u) :: m, a => if a = b then some u else Cells.read m a

/-- Set a cell, keeping the addresses strictly rising. -/
def Cells.write {α : Type} : Cells α → Nat → α → Cells α
  | [], a, v => [(a, v)]
  | (b, u) :: m, a, v =>
    if a < b then (a, v) :: (b, u) :: m
    else if a = b then (a, v) :: m
    else (b, u) :: Cells.write m a v

/-- The canonical form: addresses strictly rising, each at least `lo` and below `hi`. -/
def Cells.wfFrom {α : Type} (lo hi : Nat) : Cells α → Bool
  | [] => true
  | (a, _) :: m => decide (lo ≤ a) && decide (a < hi) && Cells.wfFrom (a + 1) hi m

/-- SRC is in canonical form, inside its 32,768 cells (R30). An unlisted cell holds no value, so no listed cell can hold
what an unlisted one reads as. -/
def Memory.wf (m : Memory) : Bool := Cells.wfFrom 0 Config.srcSize m

/-- OUT is in canonical form, inside its 64,000 cells (R31). -/
def Raster.wf (m : Raster) : Bool := Cells.wfFrom 0 Config.npix m

/-! ## FAULT (R35) -/

/-- Add a record to FAULT. FAULT is a set: a record it already holds is not added again. -/
def addFault (f : Fault) (s : State) : State :=
  if f ∈ s.faults then s else { s with faults := s.faults ++ [f] }

/-- Is the record an `UNWRITTEN_SRC`? -/
def Fault.isUnwrittenSrc : Fault → Bool
  | .unwrittenSrc _ => true
  | .unwrittenOut _ => false
  | .hostSrcRange _ => false
  | .hostOutRange _ => false
  | .hostOutWrite _ => false
  | .hostCtrlAccess _ _ => false
  | .hostHazard _ => false

/-- After an `UNWRITTEN_SRC` record "the engine takes no further step" (R52, R275). -/
def engineStuck (s : State) : Bool := s.faults.any Fault.isUnwrittenSrc

/-- Is the record a `HOST_HAZARD`? -/
def Fault.isHostHazard : Fault → Bool
  | .unwrittenSrc _ => false
  | .unwrittenOut _ => false
  | .hostSrcRange _ => false
  | .hostOutRange _ => false
  | .hostOutWrite _ => false
  | .hostCtrlAccess _ _ => false
  | .hostHazard _ => true

/-- The record for which the model "refuses the run" (R270): the oldest `HOST_HAZARD`, if FAULT holds one. What a running
command reads after such a write is unspecified, and the model does not pick. -/
def refusedBy (s : State) : Option Fault := s.faults.find? Fault.isHostHazard

/-- The engine has a step: BUSY = 1 with a command in CUR (R20, R32), and it is not stuck (R52). -/
def engineEnabled (s : State) : Bool := s.status.busy && s.cur.isSome && !engineStuck s

/-! ## Primitives (R13) -/

/-- `SrcRead(a)` (R51, R52): the byte, or the record that the cell holds ⊥. -/
def srcRead (s : State) (a : Nat) : Except Fault Byte :=
  match Cells.read s.src a with
  | some v => .ok v
  | none => .error (.unwrittenSrc a)

/-- Set SRC cell `a` (R53). -/
def srcWrite (a : Nat) (v : Byte) (s : State) : State := { s with src := Cells.write s.src a v }

/-- `OutWrite(k, px)` (R55). -/
def outWrite (k : Nat) (px : Rgb) (s : State) : State := { s with out := Cells.write s.out k px }

/-- `RESULT <- v`. -/
def setResult (v : Word) (s : State) : State := { s with result := v }

/-- `SRC_LEN <- v`. -/
def setSrcLen (v : Word) (s : State) : State := { s with srcLen := v }

/-- `PEND <- ps`. -/
def setPend (ps : List Pixel) (s : State) : State := { s with pend := ps }

/-! ## The life cycle of a command (R100) -/

/-- Accept command word `w` (R101). -/
def acceptCommand (w : Word) (s : State) : State := { s with cur := some w, status := s.status.accept }

/-- Drop a command word that arrived while BUSY = 1 (R102). -/
def overrunCommand (s : State) : State := { s with status := s.status.overrun }

/-- `complete()` of a command other than ACK (R103). -/
def completeCommand (s : State) : State := { s with pend := [], cur := none, status := s.status.complete }

/-- ACK's end: OVR cleared, then `complete()`, which does not set DONE (R107, R103). -/
def completeAck (s : State) : State := { s with pend := [], cur := none, status := s.status.completeAck }

/-- `raise E(info)` (R221): the block's only exception. It saves no program counter and changes no mode, because the block
has none (R230); `info` is stored nowhere. There is no return from it (R231): the next accepted command clears DONE, ERR
and ERRCODE (`acceptCommand`), and ACK clears OVR too (`completeAck`). -/
def raiseError (e : ErrCode) (s : State) : State := { s with pend := [], cur := none, status := s.status.raise e }

/-! ## The checks of the first engine step (R108, R225) -/

/-- `SizeOK` (R104): the whole 32-bit SRC_LEN is compared. -/
def sizeOK (s : State) : Bool := s.srcLen == BitVec.ofNat 32 Config.srcSize

/-- ARG_RANGE unless the operands are legal (R223). -/
def checkArgs (legal : Bool) (s : State) (body : Host.Outcome State Fault Refusal) : Host.Outcome State Fault Refusal :=
  if legal then body else .next (raiseError .argRange s)

/-- FMT_SIZE unless `SizeOK` (R104, R222). -/
def checkSize (s : State) (body : Host.Outcome State Fault Refusal) : Host.Outcome State Fault Refusal :=
  if sizeOK s then body else .next (raiseError .fmtSize s)

/-- Go on with a value read from SRC; if a cell held ⊥, add the record and write nothing else (R52). -/
def withRead {α : Type} (r : Except Fault α) (s : State) (k : α → State) : Host.Outcome State Fault Refusal :=
  match r with
  | .ok v => .next (k v)
  | .error f => .next (addFault f s)

end Sys2Proof.Machine
end

