-- ==== Sys2Proof/Machine/Control.lean ====
section
/-! DEFINITION. The control commands NOP, VALID and ACK (spec 40_control.md). -/

namespace Sys2Proof.Machine

/-- NOP (R105): complete at once; SRC_LEN is not checked. -/
def execNop (s : State) : Host.Outcome State Fault Refusal := .next (completeCommand s)

/-- VALID (R106): complete if `SRC_LEN = 32768`, else FMT_SIZE; no SRC byte is read. -/
def execValid (s : State) : Host.Outcome State Fault Refusal := checkSize s (.next (completeCommand s))

/-- ACK (R107): clear OVR and complete without setting DONE. -/
def execAck (s : State) : Host.Outcome State Fault Refusal := .next (completeAck s)

end Sys2Proof.Machine
end

