-- ==== Sys2Proof/Machine/Palette.lean ====
section
/-! DEFINITION. The palette multiplexer and the RGB colour assembler, PFET and ASMB (spec 43_palette.md). -/

namespace Sys2Proof.Machine

/-- A palette word from its low and high byte, little-endian: `zext_16(b0) | (zext_16(b1) << 8)` (R54, R161). -/
def entryOfBytes (b0 b1 : Byte) : Entry := b0.setWidth 16 ||| b1.setWidth 16 <<< 8

/-- `PalWord(p, c)` (R161). The low byte is read first (R168). -/
def palWord (s : State) (p c : Nibble) : Except Fault Entry :=
  match srcRead s (paletteLoAddr p c) with
  | .error f => .error f
  | .ok b0 =>
    match srcRead s (paletteHiAddr p c) with
    | .error f => .error f
    | .ok b1 => .ok (entryOfBytes b0 b1)

/-- The 4-bit channel of an entry at a layout position (R163). -/
def channel (e : Entry) (pos : Config.NibblePos) : Nibble := e.extractLsb' pos.bit 4

/-- `Widen(v) = (v << 4) | v` (R165). -/
def widen (v : Nibble) : Byte := v.setWidth 8 <<< 4 ||| v.setWidth 8

/-- `Assemble(e)` under a channel layout (R164). -/
def assemble (l : Config.ChanLayout) (e : Entry) : Rgb where
  r := widen (channel e l.rLo)
  g := widen (channel e l.gLo)
  b := widen (channel e l.bLo)

/-- PFET p, c (R168): RESULT gets the palette word whole. -/
def execPfet (p c : Nibble) (s : State) : Host.Outcome State Fault Refusal :=
  checkSize s <| withRead (palWord s p c) s fun e => completeCommand (setResult (resultOfEntry e) s)

/-- ASMB e (R169): RESULT gets the assembled colour; SRC and SRC_LEN play no part. -/
def execAsmb (e : Entry) (s : State) : Host.Outcome State Fault Refusal :=
  .next (completeCommand (setResult (resultOfRgb (assemble s.config.layout e)) s))

end Sys2Proof.Machine
end

