-- ==== Sys2Proof/Machine/Selector.lean ====
section
/-! DEFINITION. The scanline selector resolver and RSCB (spec 41_selector.md). -/

namespace Sys2Proof.Machine

/-- The palette index in a selector byte: bits 3:0; bits 7:4 are ignored (R85, R121). -/
def selectorIndex (scb : Byte) : Nibble := scb.extractLsb' 0 4

/-- `pidx(y)` (R122). -/
def pidx (s : State) (y : Nat) : Except Fault Nibble :=
  match srcRead s (scbAddr y) with
  | .ok scb => .ok (selectorIndex scb)
  | .error f => .error f

/-- RSCB y (R124): RESULT gets the raw selector byte and its palette index. -/
def execRscb (y : BitVec 8) (s : State) : Host.Outcome State Fault Refusal :=
  checkArgs (legalY y) s <| checkSize s <|
    withRead (srcRead s (scbAddr y.toNat)) s fun scb =>
      completeCommand (setResult (resultOfByteIndex scb (selectorIndex scb)) s)

end Sys2Proof.Machine
end

