-- ==== Sys2Proof/Machine/Unpacker.lean ====
section
/-! DEFINITION. The nibble unpacker and UNPK (spec 42_unpacker.md). -/

namespace Sys2Proof.Machine

/-- The pixel index of column `x` in its bitmap byte (R142): the high nibble for an even `x`, the low one for an odd. -/
def nibbleOf (sb : Byte) (x : Nat) : Nibble := if x % 2 = 0 then sb.extractLsb' 4 4 else sb.extractLsb' 0 4

/-- `cidx(y, x)` (R142). -/
def cidx (s : State) (y x : Nat) : Except Fault Nibble :=
  match srcRead s (byteIndex y x) with
  | .ok sb => .ok (nibbleOf sb x)
  | .error f => .error f

/-- UNPK y, x (R144): RESULT gets the raw bitmap byte and the pixel index. -/
def execUnpk (y : BitVec 8) (x : BitVec 9) (s : State) : Host.Outcome State Fault Refusal :=
  checkArgs (legalY y && legalX x) s <| checkSize s <|
    withRead (srcRead s (byteIndex y.toNat x.toNat)) s fun sb =>
      completeCommand (setResult (resultOfByteIndex sb (nibbleOf sb x.toNat)) s)

end Sys2Proof.Machine
end

