-- ==== Sys2Proof/Machine/Pipeline.lean ====
section
/-! DEFINITION. The per-pixel function and the commands DPIX, DLIN and DFRM, with the pixel step that a line or frame command
repeats (spec 44_pipeline.md). -/

namespace Sys2Proof.Machine

/-- `Pixel(y, x)` (R190), reading SRC in the order selector, bitmap, palette low, palette high (R191). -/
def pixelColour (s : State) (y x : Nat) : Except Fault Rgb :=
  match pidx s y with
  | .error f => .error f
  | .ok p =>
    match cidx s y x with
    | .error f => .error f
    | .ok c =>
      match palWord s p c with
      | .error f => .error f
      | .ok e => .ok (assemble s.config.layout e)

/-- DPIX y, x (R192): one pixel to its OUT cell and to RESULT. -/
def execDpix (y : BitVec 8) (x : BitVec 9) (s : State) : Host.Outcome State Fault Refusal :=
  checkArgs (legalY y && legalX x) s <| checkSize s <|
    withRead (pixelColour s y.toNat x.toNat) s fun px =>
      completeCommand (setResult (resultOfRgb px) (outWrite (pixelNumber ⟨y.toNat, x.toNat⟩) px s))

/-- DLIN y, first engine step (R193, R196): PEND becomes the row's positions; nothing is read or written. -/
def execDlin (y : BitVec 8) (s : State) : Host.Outcome State Fault Refusal :=
  checkArgs (legalY y) s <| checkSize s <| .next (setPend (rowPixels y.toNat) s)

/-- DFRM, first engine step (R194, R196): PEND becomes every position; nothing is read or written. -/
def execDfrm (s : State) : Host.Outcome State Fault Refusal := checkSize s <| .next (setPend framePixels s)

/-- The end of a pixel step (R195): position `i` leaves PEND, and the command completes if none is left. -/
def retirePixel (i : Nat) (s : State) : State :=
  if (s.pend.eraseIdx i).isEmpty then completeCommand s else setPend (s.pend.eraseIdx i) s

/-- The pixel step (R195) on the pending position `pick` modulo the number of pending ones. -/
def pixelStep (pick : Nat) (s : State) : Host.Outcome State Fault Refusal :=
  match s.pend[pick % s.pend.length]? with
  | none => .next s
  | some p =>
    withRead (pixelColour s p.y p.x) s fun px =>
      retirePixel (pick % s.pend.length) (outWrite (pixelNumber p) px s)

end Sys2Proof.Machine
end

