-- ==== Sys2Proof/Machine/Dispatch.lean ====
section
/-! DEFINITION. One arm per command: what the first engine step of a decoded command does (R108). -/

namespace Sys2Proof.Machine

def exec (i : Instr) (s : State) : Host.Outcome State Fault Refusal :=
  match i with
  | .nop => Sys2Proof.Machine.execNop s
  | .valid => Sys2Proof.Machine.execValid s
  | .rscb y => Sys2Proof.Machine.execRscb y s
  | .unpk y x => Sys2Proof.Machine.execUnpk y x s
  | .pfet p c => Sys2Proof.Machine.execPfet p c s
  | .asmb e => Sys2Proof.Machine.execAsmb e s
  | .dpix y x => Sys2Proof.Machine.execDpix y x s
  | .dlin y => Sys2Proof.Machine.execDlin y s
  | .dfrm => Sys2Proof.Machine.execDfrm s
  | .ack => Sys2Proof.Machine.execAck s

end Sys2Proof.Machine
end

