-- ==== Sys2Proof/Machine/HostPort.lean ====
section
/-! DEFINITION. The host's accesses: the control window, SRC, OUT and the reset input (spec 10, 20, 40, 70). -/

namespace Sys2Proof.Machine

/-! ## The control window (R22, R57, R59) -/

/-- The control access is admitted: 32 bits wide, 4-byte aligned, below 0x100 (R57). -/
def ctrlAdmitted (offset width : Nat) : Bool :=
  decide (width = 32) && decide (offset % 4 = 0) && decide (offset < 0x100)

/-- What a control register reads as (R22). CMD and the reserved offsets read 0 (R23, R29). -/
def ctrlValue (s : State) (offset : Nat) : Word :=
  if offset = 0x04 then s.status.word
  else if offset = 0x08 then s.srcLen
  else if offset = 0x0C then s.result
  else if offset = 0x10 then configWord s.config
  else 0

/-- A command write (R23): accepted if BUSY = 0 (R101), else dropped (R102). -/
def commandWrite (w : Word) (s : State) : State :=
  if s.status.busy then overrunCommand s else acceptCommand w s

/-- A write of SRC_LEN (R26). While BUSY = 1 it breaks host contract H1, and its record refuses the run: `schedule` takes no
step from there on (R270). -/
def srcLenWrite (v : Word) (s : State) : State :=
  if s.status.busy then setSrcLen v (addFault (.hostHazard .srcLen) s) else setSrcLen v s

/-- A write of an admitted control offset: only CMD and SRC_LEN are writable (R22). -/
def ctrlStore (offset : Nat) (v : Word) (s : State) : State :=
  if offset = 0x00 then commandWrite v s
  else if offset = 0x08 then srcLenWrite v s
  else s

/-- A host read's returned value. -/
def setRead (d : Option HostData) (s : State) : State := { s with readData := d }

/-- A control read (R57). One that is not admitted returns nothing (R59). -/
def hostCtrlRead (offset width : Nat) (s : State) : State :=
  if ctrlAdmitted offset width then setRead (some (.word (ctrlValue s offset))) s
  else setRead none (addFault (.hostCtrlAccess offset width) s)

/-- A control write (R57). One that is not admitted changes nothing but FAULT (R59). -/
def hostCtrlWrite (offset width : Nat) (v : Word) (s : State) : State :=
  if ctrlAdmitted offset width then ctrlStore offset v s
  else addFault (.hostCtrlAccess offset width) s

/-! ## SRC (R53) -/

/-- `HostSrcWrite(a, v)`. An address of 32,768 or above is refused; a write while BUSY = 1 breaks host contract H1,
and its record refuses the run: `schedule` takes no step from there on (R270). -/
def hostSrcWrite (a : Nat) (v : Byte) (s : State) : State :=
  if a < Config.srcSize then
    if s.status.busy then srcWrite a v (addFault (.hostHazard (.src a)) s) else srcWrite a v s
  else addFault (.hostSrcRange a) s

/-! ## OUT (R55, R56) -/

/-- `HostOutRead(k)`: the bytes of one cell. -/
def hostOutReadPixel (k : Nat) (s : State) : State :=
  if k < Config.npix then
    match Cells.read s.out k with
    | some px => setRead (some (.pixel (pixelBytes s.config px))) s
    | none => setRead none (addFault (.unwrittenOut k) s)
  else setRead none (addFault (.hostOutRange (k * bytesPerPixel s.config)) s)

/-- A read of the byte at offset `o` of the byte image. -/
def hostOutReadByte (o : Nat) (s : State) : State :=
  if o < Config.npix * bytesPerPixel s.config then
    match Cells.read s.out (o / bytesPerPixel s.config) with
    | some px => setRead (((pixelBytes s.config px)[o % bytesPerPixel s.config]?).map .byte) s
    | none => setRead none (addFault (.unwrittenOut (o / bytesPerPixel s.config)) s)
  else setRead none (addFault (.hostOutRange o) s)

/-- A host write to OUT is not admitted. -/
def hostOutWrite (o : Nat) (s : State) : State := addFault (.hostOutWrite o) s

/-! ## Reset (R260) -/

/-- Assert reset: every piece of the block's state takes its value of R36. CONFIG is constant, and FAULT is not cleared.
The host's program, the scheduler and what the host has read are not the block's state. -/
def resetBlock (s : State) : State :=
  { s with status := Status.reset, srcLen := 0, result := 0, cur := none, pend := [], src := [], out := [] }

/-! ## One host step -/

/-- The effect of one host action. -/
def hostAct (a : HostAction) (s : State) : State :=
  match a with
  | .srcWrite a v => hostSrcWrite a v s
  | .ctrlWrite offset width v => hostCtrlWrite offset width v s
  | .ctrlRead offset width => hostCtrlRead offset width s
  | .outReadPixel k => hostOutReadPixel k s
  | .outReadByte o => hostOutReadByte o s
  | .outWrite o _ => hostOutWrite o s
  | .reset => resetBlock s
  | .wait => hostCtrlRead 0x04 32 s

/-- The host goes on to its next action: always, except that WAIT repeats while BUSY = 1 (R84). -/
def hostAdvance (a : HostAction) (rest : List HostAction) (s : State) : State :=
  if a = .wait ∧ s.status.busy = true then s else { s with prog := rest }

/-- A host step: the first action of its program, if it has one left. -/
def hostTurn (s : State) : State :=
  match s.prog with
  | [] => s
  | a :: rest => hostAct a (hostAdvance a rest s)

end Sys2Proof.Machine
end

