-- ==== Sys2Proof/Machine/Engine.lean ====
section
/-! DEFINITION. The engine's step (R33, R108, R195), the scheduler (R20, R275), and the fetch of a command for the very next
step. -/

namespace Sys2Proof.Machine

/-- The first engine step of the accepted word (R108): decode it, raise ILLEGAL_CMD if it is illegal (R224), else do what
the command does. -/
def firstStep (w : Word) (s : State) : Host.Outcome State Fault Refusal :=
  match decode w with
  | .error _ => .next (raiseError .illegalCmd s)
  | .ok i => exec i s

/-- One engine step, if the engine has one: a pixel step while PEND is not empty (R195), else the command's first step
(R108). PEND is not empty exactly between the first and the last step of a line or frame command (R32, R196). -/
def engineTurn (pick : Nat) (s : State) : Host.Outcome State Fault Refusal :=
  if engineEnabled s then
    match s.pend, s.cur with
    | _ :: _, _ => pixelStep pick s
    | [], some w => firstStep w s
    | [], none => .next s
  else .next s

/-- An engine step that the schedule does not name: the pixel it takes is a FREE VALUE, drawn by the counter (R195). -/
def engineFreeTurn (s : State) : Host.Outcome State Fault Refusal :=
  if s.pend.isEmpty then engineTurn 0 s
  else engineTurn (Config.freePick s.draws) { s with draws := s.draws + 1 }

/-- The run is at rest: no agent has a step. If FAULT is empty the state stays as it is (R277: a run ends there); else the
run has failed, and its first record is the answer. -/
def restingStep (s : State) : Host.Outcome State Fault Refusal :=
  match s.faults with
  | [] => .next s
  | f :: _ => .fault f

/-- One step of a run that is not refused: the agent the schedule names, or, once the schedule is used up, the engine while
it has a step, then the host (R20; weak fairness, R275). -/
def scheduledStep (s : State) : Host.Outcome State Fault Refusal :=
  match s.turns with
  | .host :: ts => .next (hostTurn { s with turns := ts })
  | .engine pick :: ts => engineTurn pick { s with turns := ts }
  | [] =>
    if engineEnabled s then engineFreeTurn s
    else if s.prog.isEmpty then restingStep s
    else .next (hostTurn s)

/-- One step of the run. A run in which the host has written SRC or SRC_LEN while BUSY = 1 is refused (R270): no agent
moves, and the record is the answer. -/
def schedule (s : State) : Host.Outcome State Fault Refusal :=
  match refusedBy s with
  | some f => .fault f
  | none => scheduledStep s

/-- The state whose very next step is the first engine step of command word `w`: `w` accepted (R101) with no command
under way, no record that holds the engine back or refuses the run, and the engine's turn next. -/
def fetchCommand (w : Word) (s : State) : State :=
  { acceptCommand w s with
      pend := []
      faults := s.faults.filter (fun f => !f.isUnwrittenSrc && !f.isHostHazard)
      turns := .engine 0 :: s.turns }

end Sys2Proof.Machine
end

