-- ==== Sys2Proof/Machine/Step.lean ====
section
/-! DEFINITION. One step of the machine, and how a command is placed so that the very next step runs it. -/

namespace Sys2Proof.Machine

/-- One step: one host step or one engine step, each atomic (R20, R33, R63). -/
def step (s : State) : Host.Outcome State Fault Refusal := schedule s

/-- `s` with the opcode table's word placed as the accepted command, the engine moving next (log entry 11). -/
def State.withFetchWord (s : State) (nbits w : Nat) : State := fetchCommand (tableWord nbits w) s

end Sys2Proof.Machine
end

