-- ==== Sys2Proof/Machine/HostProgram.lean ====
section
/-! DEFINITION. The assembler (R83), the host actions and pseudo-instructions of R84, and the host's multi-byte SRC write
(R53), as lists of host actions. -/

namespace Sys2Proof.Machine

/-! ## The assembler (R83) -/

/-- A command as it is written: the operands are the numbers its literals denote, decimal or hexadecimal. -/
inductive Asm where
  | nop
  | valid
  | rscb (y : Nat)
  | unpk (y x : Nat)
  | pfet (p c : Nat)
  | asmb (e : Nat)
  | dpix (y x : Nat)
  | dlin (y : Nat)
  | dfrm
  | ack
  deriving DecidableEq, Repr

/-- An operand in a field of `w` bits; refused if it does not fit. -/
def fitField (w n : Nat) : Option (BitVec w) := if n < 2 ^ w then some (BitVec.ofNat w n) else none

/-- A two-operand command, refused if either operand does not fit its field. -/
def fitTwo {v w : Nat} (mk : BitVec v → BitVec w → Instr) (a b : Nat) : Option Instr :=
  match fitField v a, fitField w b with
  | some a, some b => some (mk a b)
  | _, _ => none

/-- The assembler: refuses "any operand that does not fit its field", and accepts an illegal row or column that does. -/
def assembleAsm : Asm → Option Instr
  | .nop => some .nop
  | .valid => some .valid
  | .rscb y => (fitField 8 y).map .rscb
  | .unpk y x => fitTwo .unpk y x
  | .pfet p c => fitTwo .pfet p c
  | .asmb e => (fitField 16 e).map .asmb
  | .dpix y x => fitTwo .dpix y x
  | .dlin y => (fitField 8 y).map .dlin
  | .dfrm => some .dfrm
  | .ack => some .ack

/-! ## Host actions (R84) -/

/-- Write a command's encoding to CMD. -/
def cmdAction (i : Instr) : HostAction := .ctrlWrite 0x00 32 (encode i)

/-- `SETLEN n`. A length of 2^32 or more cannot be reported (D31): the register gets `n` modulo 2^32. -/
def setLenAction (n : Nat) : HostAction := .ctrlWrite 0x08 32 (BitVec.ofNat 32 n)

/-- `rd STATUS`. -/
def rdStatus : HostAction := .ctrlRead 0x04 32

/-- `rd RESULT`. -/
def rdResult : HostAction := .ctrlRead 0x0C 32

/-- `rd CONFIG`. -/
def rdConfig : HostAction := .ctrlRead 0x10 32

/-- `rd OUT[k]`. -/
def rdOut (k : Nat) : HostAction := .outReadPixel k

/-- The host's write of the `bytes` at address `a`, lowest address first, each a separate step (R53). -/
def srcWrites (a : Nat) : List Byte → List HostAction
  | [] => []
  | v :: vs => .srcWrite a v :: srcWrites (a + 1) vs

/-- The bytes of an `n`-byte value, least significant first: `w[8i+7:8i]` for `i = 0 .. n-1` (R53). -/
def bytesLE (n w : Nat) : List Byte := (List.range n).map fun i => BitVec.ofNat 8 (w / 2 ^ (8 * i))

/-- A host write of an `n`-byte value `w` at SRC address `a` (R53). -/
def srcWriteValue (a n w : Nat) : List HostAction := srcWrites a (bytesLE n w)

/-! ## Pseudo-instructions (R84) -/

/-- `LOAD img`: the first `min(n, 32768)` bytes to SRC, then `SETLEN n`. -/
def loadImage (img : List Byte) : List HostAction :=
  srcWrites 0 (img.take Config.srcSize) ++ [setLenAction img.length]

/-- `RUN cmd`: the command, then `WAIT`. -/
def runCommand (i : Instr) : List HostAction := [cmdAction i, .wait]

/-- `DECODE img`: `LOAD img; RUN DFRM`. -/
def decodeImage (img : List Byte) : List HostAction := loadImage img ++ runCommand .dfrm

end Sys2Proof.Machine
end

