-- ==== Sys2Proof/Safety.lean ====
section
/-! DEFINITION. The invariant of every reachable state (R25, R30 to R32), and what ends a run well (R277). -/

namespace Sys2Proof.Machine

/-- The STATUS invariants of R25. -/
structure Status.Legal (st : Status) : Prop where
  busy_clears : st.busy = true → st.done = false ∧ st.err = false
  done_not_err : st.done = true → st.err = false
  err_iff_code : st.err = false ↔ st.errCode = 0
  code_range : st.errCode = 0 ∨ st.errCode = 1 ∨ st.errCode = 2 ∨ st.errCode = 3

/-- PEND is empty, or holds positions of the line or frame command in CUR, in row-major order without repeats (R32). -/
def PendLegal (s : State) : Prop :=
  s.pend = [] ∨ ∃ w i, s.cur = some w ∧ decode w = .ok i ∧ s.pend.Sublist (commandPixels i)

/-- The invariant of the machine. -/
structure Invariant (s : State) : Prop where
  status_legal : s.status.Legal
  busy_iff_cur : s.status.busy = true ↔ s.cur.isSome = true
  pend_legal : PendLegal s
  src_wf : Memory.wf s.src = true
  out_wf : Raster.wf s.out = true
  layout_distinct : s.config.layout.distinct = true
  faults_nodup : s.faults.Nodup

/-- Command word `w` is accepted and the engine's next step is its first (R101, R108): no record holds the engine back
(R52) or refuses the run (R270). -/
structure Accepted (w : Word) (s : State) : Prop where
  busy : s.status.busy = true
  cur_eq : s.cur = some w
  pend_eq : s.pend = []
  not_stuck : engineStuck s = false
  not_refused : refusedBy s = none

/-- The next `n` steps are the engine's as far as the schedule goes: it names `n` engine turns, whatever pixels they pick,
or it names nothing and the picks are free values. -/
def EngineMoves (n : Nat) (s : State) : Prop :=
  s.turns = [] ∨ ∃ picks : List Nat, picks.length = n ∧ picks.map Turn.engine <+: s.turns

/-- `t` is `s` but for what is left of the schedule and of the free choices. -/
def SameRunBut (s t : State) : Prop := { s with turns := t.turns, draws := t.draws } = t

/-- The four SRC bytes of pixel `(y, x)` are written, so that it has a colour. -/
def Readable (s : State) (y x : Nat) : Prop := ∃ px, pixelColour s y x = .ok px

/-- The colour of pixel `(y, x)` of an image, in plain arithmetic: MC320's per-pixel algorithm as R122, R141, R142, R161,
R163 and R165 give it, written apart from the machine's own datapath. -/
def imagePixel (l : Config.ChanLayout) (img : Nat → Nat) (y x : Nat) : Nat × Nat × Nat :=
  let p := img (32000 + y) % 16
  let sb := img (y * 160 + x / 2)
  let c := if x % 2 = 0 then sb / 16 else sb % 16
  let k := 16 * p + c
  let e := img (32256 + 2 * k) + 256 * img (32256 + 2 * k + 1)
  (e / 2 ^ l.rLo.bit % 16 * 17, e / 2 ^ l.gLo.bit % 16 * 17, e / 2 ^ l.bLo.bit % 16 * 17)

/-- A colour as three numbers. -/
def Rgb.nats (c : Rgb) : Nat × Nat × Nat := (c.r.toNat, c.g.toNat, c.b.toNat)

/-- The machine after reset with any parameters, any host program and any schedule: where a run starts (R11, R20). -/
def startState (c : Config.Params) (prog : List HostAction) (turns : List Turn) : State :=
  { State.reset with config := c, prog := prog, turns := turns }

/-- The end of a run (R277): no host action left, BUSY = 0, FAULT empty. -/
def EndOfRun (s : State) : Prop := s.prog = [] ∧ s.status.busy = false ∧ s.faults = []

end Sys2Proof.Machine
end

