-- ==== Sys2Proof/Certificates/Slice0/Obligations.lean ====
section
/-! DEFINITION. The statements about the model, one definition each; their proofs stand elsewhere. -/

open Sys2Proof Sys2Proof.Machine

namespace Sys2Proof.Machine

/-- The state R103 leaves when a command other than ACK completes, written out. -/
abbrev ended (s : State) : State :=
  { s with pend := [], cur := none, status := { s.status with busy := false, done := true } }

/-- The state R221 leaves when a command ends with error code `code`, written out. -/
abbrev endedWith (code : Nibble) (s : State) : State :=
  { s with pend := [], cur := none, status := { s.status with busy := false, err := true, errCode := code } }

/-- Every word with opcode `op` and a 1 among the bits `reserved` is illegal, and its first engine step ends it with
ILLEGAL_CMD (code 2). -/
def IllegalWith (op : BitVec 4) (reserved : Word) : Prop :=
  ∀ w : Word, w.extractLsb' 0 4 = op → w &&& reserved ≠ 0 →
    decode w = .error .reservedBits ∧ ∀ s : State, firstStep w s = .next (endedWith 2 s)

/-- What every command leaves alone: SRC, SRC_LEN, CONFIG, and the host's and scheduler's side. -/
def KeepsInputs (s t : State) : Prop :=
  (∀ a, Cells.read t.src a = Cells.read s.src a) ∧ t.srcLen = s.srcLen ∧ t.config = s.config ∧ t.prog = s.prog ∧
    t.turns = s.turns ∧ t.draws = s.draws ∧ t.readData = s.readData

end Sys2Proof.Machine

/-! ## Encoding -/

/-- R82: `decode` inverts `encode`, for every command at every operand value its fields hold. -/
def Obligations.DecodeOfEncodeIsTheCommand : Prop := ∀ i : Instr, decode (encode i) = .ok i

/-- R82, the other way: a word that decodes is the encoding of what it decodes to, so no bit of it is dropped. -/
def Obligations.EncodeOfDecodeIsTheWord : Prop := ∀ (w : Word) (i : Instr), decode w = .ok i → encode i = w

/-- R78: a word encodes a row's command exactly when `(w & mask) = match`. -/
def Obligations.DecodeByMatchAndMask : Prop :=
  ∀ w : Word,
    (decode w = .ok .nop ↔ w &&& 0xFFFFFFFF = 0x00000000) ∧
    (decode w = .ok .valid ↔ w &&& 0xFFFFFFFF = 0x00000001) ∧
    ((∃ y, decode w = .ok (.rscb y)) ↔ w &&& 0xFFFFF00F = 0x00000002) ∧
    ((∃ y x, decode w = .ok (.unpk y x)) ↔ w &&& 0xFFE0000F = 0x00000003) ∧
    ((∃ p c, decode w = .ok (.pfet p c)) ↔ w &&& 0xFFFFF00F = 0x00000004) ∧
    ((∃ e, decode w = .ok (.asmb e)) ↔ w &&& 0x0000FFFF = 0x00000005) ∧
    ((∃ y x, decode w = .ok (.dpix y x)) ↔ w &&& 0xFFE0000F = 0x00000006) ∧
    ((∃ y, decode w = .ok (.dlin y)) ↔ w &&& 0xFFFFF00F = 0x00000007) ∧
    (decode w = .ok .dfrm ↔ w &&& 0xFFFFFFFF = 0x00000008) ∧
    (decode w = .ok .ack ↔ w &&& 0xFFFFFFFF = 0x00000009)

/-- R79, R80: opcodes 0xA to 0xF, and a 1 in any reserved bit of the format of opcodes 0x0 to 0x9, are illegal; and an
accepted illegal word's first engine step ends it with ILLEGAL_CMD (code 2). -/
def Obligations.ReservedEncodingsAreIllegal : Prop :=
  (∀ w : Word, 10 ≤ (w.extractLsb' 0 4).toNat → decode w = .error .reservedOpcode) ∧
  (∀ op : BitVec 4, op = 0 ∨ op = 1 ∨ op = 8 ∨ op = 9 → IllegalWith op 0xFFFFFFF0) ∧
  (∀ op : BitVec 4, op = 2 ∨ op = 7 → IllegalWith op 0xFFFFF000) ∧
  (∀ op : BitVec 4, op = 3 ∨ op = 6 → IllegalWith op 0xFFE00000) ∧
  IllegalWith 4 0xFFFFF000 ∧ IllegalWith 5 0x0000FFF0 ∧
  (∀ (w : Word) (r : Illegal) (s : State) (pick : Nat) (ts : List Turn), decode w = .error r → Accepted w s →
    s.turns = .engine pick :: ts → step s = .next (endedWith 2 { s with turns := ts }))

/-- R77: each operand is its field read as an unsigned number. -/
def Obligations.OperandsAreTheirFields : Prop :=
  ∀ w : Word,
    (∀ y, decode w = .ok (.rscb y) ∨ decode w = .ok (.dlin y) → y.toNat = w.toNat / 2 ^ 4 % 2 ^ 8) ∧
    (∀ y x, decode w = .ok (.unpk y x) ∨ decode w = .ok (.dpix y x) →
      y.toNat = w.toNat / 2 ^ 4 % 2 ^ 8 ∧ x.toNat = w.toNat / 2 ^ 12 % 2 ^ 9) ∧
    (∀ p c, decode w = .ok (.pfet p c) → p.toNat = w.toNat / 2 ^ 4 % 2 ^ 4 ∧ c.toNat = w.toNat / 2 ^ 8 % 2 ^ 4) ∧
    (∀ e, decode w = .ok (.asmb e) → e.toNat = w.toNat / 2 ^ 16)

/-- R82's examples, decoded and encoded. -/
def Obligations.ExampleWordsDecode : Prop :=
  decode 0x00001006 = .ok (.dpix 0 1) ∧ decode 0x0013FC73 = .ok (.unpk 199 319) ∧
  decode 0x00000FF4 = .ok (.pfet 15 15) ∧ decode 0x0ABC0005 = .ok (.asmb 0x0ABC) ∧
  decode 0x00000057 = .ok (.dlin 5) ∧ decode 0x00000052 = .ok (.rscb 5) ∧ decode 0x00000008 = .ok .dfrm ∧
  encode (.dpix 0 1) = 0x00001006 ∧ encode (.unpk 199 319) = 0x0013FC73 ∧ encode (.pfet 15 15) = 0x00000FF4 ∧
  encode (.asmb 0x0ABC) = 0x0ABC0005 ∧ encode (.dlin 5) = 0x00000057 ∧ encode (.rscb 5) = 0x00000052 ∧
  encode .dfrm = 0x00000008

/-- R83: the assembler refuses an operand exactly when it does not fit its field (so it accepts rows 200 to 255 and columns
320 to 511), and puts each operand in its own place. -/
def Obligations.AssemblerRefusesWhatDoesNotFit : Prop :=
  ∀ y x p c e : Nat,
    (assembleAsm (.rscb y) = if y ≤ 255 then some (.rscb (BitVec.ofNat 8 y)) else none) ∧
    (assembleAsm (.dlin y) = if y ≤ 255 then some (.dlin (BitVec.ofNat 8 y)) else none) ∧
    (assembleAsm (.unpk y x) =
      if y ≤ 255 ∧ x ≤ 511 then some (.unpk (BitVec.ofNat 8 y) (BitVec.ofNat 9 x)) else none) ∧
    (assembleAsm (.dpix y x) =
      if y ≤ 255 ∧ x ≤ 511 then some (.dpix (BitVec.ofNat 8 y) (BitVec.ofNat 9 x)) else none) ∧
    (assembleAsm (.pfet p c) =
      if p ≤ 15 ∧ c ≤ 15 then some (.pfet (BitVec.ofNat 4 p) (BitVec.ofNat 4 c)) else none) ∧
    (assembleAsm (.asmb e) = if e ≤ 0xFFFF then some (.asmb (BitVec.ofNat 16 e)) else none)

/-! ## Registers, reset and the host's accesses -/

/-- R36: what reset leaves; CONFIG is constant, and reset does not clear FAULT. -/
def Obligations.ResetLeavesTheSpecState : Prop :=
  State.reset.status = { busy := false, done := false, err := false, ovr := false, errCode := 0 } ∧
  State.reset.status.word = 0 ∧ State.reset.srcLen = 0 ∧ State.reset.result = 0 ∧
  State.reset.cur = none ∧ State.reset.pend = [] ∧ State.reset.faults = [] ∧
  (∀ a, Cells.read State.reset.src a = none) ∧ (∀ k, Cells.read State.reset.out k = none) ∧
  ∀ s : State, (hostAct .reset s).config = s.config ∧ (hostAct .reset s).faults = s.faults

/-- R260: the host's reset, at any time, gives every piece of the block's state its value of R36; CONFIG is constant and
FAULT is kept (R36); the next command write is accepted. That reset keeps `prog`, `turns`, `draws` and `readData`, which are
no state of the block, is the model's own choice (log entry 12, DESIGN CHOICE). -/
def Obligations.HostResetRestoresTheResetState : Prop :=
  ∀ s : State,
    hostAct .reset s = { State.reset with
      config := s.config, faults := s.faults, prog := s.prog, turns := s.turns, draws := s.draws,
      readData := s.readData } ∧
    ∀ w : Word, (hostAct (.ctrlWrite 0x00 32 w) (hostAct .reset s)).cur = some w ∧
      (hostAct (.ctrlWrite 0x00 32 w) (hostAct .reset s)).status.busy = true

/-- R24: the fields of the STATUS word. -/
def Obligations.StatusWordHoldsItsFields : Prop :=
  ∀ st : Status,
    st.word.getLsbD 0 = st.busy ∧ st.word.getLsbD 1 = st.done ∧ st.word.getLsbD 2 = st.err ∧
    st.word.getLsbD 3 = st.ovr ∧ st.word.extractLsb' 4 4 = st.errCode ∧ st.word.extractLsb' 8 24 = 0

/-- R28: CONFIG reports the two parameters, reads 0x61 with the default ones, and no step changes it. -/
def Obligations.ConfigReportsTheParameters : Prop :=
  (∀ c : Config.Params,
    (configWord c).getLsbD 0 = c.outAlpha ∧ (configWord c).extractLsb' 1 3 = 0 ∧
    ((configWord c).extractLsb' 4 2).toNat = c.layout.rLo.bit / 4 ∧
    ((configWord c).extractLsb' 6 2).toNat = c.layout.gLo.bit / 4 ∧
    ((configWord c).extractLsb' 8 2).toNat = c.layout.bLo.bit / 4 ∧ (configWord c).extractLsb' 10 22 = 0) ∧
  configWord { outAlpha := true, layout := { rLo := .p8, gLo := .p4, bLo := .p0 } } = 0x00000061 ∧
  (∀ s v, hostAct (.ctrlWrite 0x10 32 v) s = s) ∧
  ∀ s t : State, step s = .next t → t.config = s.config

/-- R22, R23, R26: what a 32-bit read of each control register returns, and what a write of each does; a read changes nothing
else (R62). -/
def Obligations.ControlRegistersReadAndWrite : Prop :=
  ∀ (s : State) (v : Word),
    hostAct (.ctrlRead 0x00 32) s = { s with readData := some (.word 0) } ∧
    hostAct (.ctrlRead 0x04 32) s = { s with readData := some (.word s.status.word) } ∧
    hostAct (.ctrlRead 0x08 32) s = { s with readData := some (.word s.srcLen) } ∧
    hostAct (.ctrlRead 0x0C 32) s = { s with readData := some (.word s.result) } ∧
    hostAct (.ctrlRead 0x10 32) s = { s with readData := some (.word (configWord s.config)) } ∧
    hostAct (.ctrlWrite 0x04 32 v) s = s ∧ hostAct (.ctrlWrite 0x0C 32 v) s = s ∧
    hostAct (.ctrlWrite 0x10 32 v) s = s ∧
    (s.status.busy = false → hostAct (.ctrlWrite 0x08 32 v) s = { s with srcLen := v } ∧
      (hostAct (.ctrlRead 0x08 32) (hostAct (.ctrlWrite 0x08 32 v) s)).readData = some (.word v))

/-- R29: a reserved offset reads 0, and a write to it has no effect. -/
def Obligations.ReservedOffsetsAreInert : Prop :=
  ∀ (s : State) (offset : Nat) (v : Word), 0x14 ≤ offset → offset ≤ 0xFC → offset % 4 = 0 →
    hostAct (.ctrlRead offset 32) s = { s with readData := some (.word 0) } ∧ hostAct (.ctrlWrite offset 32 v) s = s

/-- R59: a control access that is not 32 bits wide, not 4-byte aligned, or at 0x100 or above adds `HOST_CTRL_ACCESS` to
FAULT; a read returns nothing and a write changes nothing. -/
def Obligations.BadControlAccessIsRefused : Prop :=
  ∀ (s : State) (offset width : Nat) (v : Word), width ≠ 32 ∨ offset % 4 ≠ 0 ∨ 0x100 ≤ offset →
    (∀ f, f ∈ (hostAct (.ctrlRead offset width) s).faults ↔ f ∈ s.faults ∨ f = .hostCtrlAccess offset width) ∧
    hostAct (.ctrlRead offset width) s =
      { s with readData := none, faults := (hostAct (.ctrlRead offset width) s).faults } ∧
    (∀ f, f ∈ (hostAct (.ctrlWrite offset width v) s).faults ↔ f ∈ s.faults ∨ f = .hostCtrlAccess offset width) ∧
    hostAct (.ctrlWrite offset width v) s =
      { s with faults := (hostAct (.ctrlWrite offset width v) s).faults }

/-- R101, R102: a write to CMD while BUSY = 0 accepts the word, whatever it is; while BUSY = 1 the word is dropped and OVR
set, and nothing else changes. -/
def Obligations.CommandWriteAcceptsOrOverruns : Prop :=
  ∀ (s : State) (w : Word),
    (s.status.busy = false → hostAct (.ctrlWrite 0x00 32 w) s =
      { s with cur := some w, status := { s.status with busy := true, done := false, err := false, errCode := 0 } }) ∧
    (s.status.busy = true → hostAct (.ctrlWrite 0x00 32 w) s = { s with status := { s.status with ovr := true } })

/-- R53: a host byte write to SRC below 32,768 while BUSY = 0 sets that cell and nothing else; at 32,768 or above, whether
BUSY is 0 or 1, it writes nothing and adds `HOST_SRC_RANGE` to FAULT; and the byte writes of an `n`-byte value while BUSY = 0
leave byte `i` of it (little-endian) at `a + i`, and touch no other cell. That the write at 32,768 or above adds no
`HOST_HAZARD` while BUSY = 1 is the model's own reading (log entry 8, DEDUCED). -/
def Obligations.HostSrcWritesAreByteWise : Prop :=
  (∀ (s : State) (a : Nat) (v : Byte),
    (a < 32768 → s.status.busy = false →
      Cells.read (hostAct (.srcWrite a v) s).src a = some v ∧
      (∀ b, b ≠ a → Cells.read (hostAct (.srcWrite a v) s).src b = Cells.read s.src b) ∧
      hostAct (.srcWrite a v) s = { s with src := (hostAct (.srcWrite a v) s).src }) ∧
    (32768 ≤ a →
      (∀ f, f ∈ (hostAct (.srcWrite a v) s).faults ↔ f ∈ s.faults ∨ f = .hostSrcRange a) ∧
      hostAct (.srcWrite a v) s = { s with faults := (hostAct (.srcWrite a v) s).faults })) ∧
  ∀ (s : State) (a n w : Nat), a + n ≤ 32768 → s.status.busy = false →
    let t := (srcWriteValue a n w).foldl (fun u act => hostAct act u) s
    (∀ i, i < n → (Cells.read t.src (a + i)).map BitVec.toNat = some (w / 2 ^ (8 * i) % 256)) ∧
    (∀ b, b < a ∨ a + n ≤ b → Cells.read t.src b = Cells.read s.src b) ∧ t = { s with src := t.src }

/-- R270: a host write of SRC or SRC_LEN while BUSY = 1 adds `HOST_HAZARD` to FAULT, and the model "refuses the run": in a
state whose FAULT holds such a record neither agent ever moves again, and the step answers the record. That it answers it as
a stopping fault is the model's own form of the refusal (log entry 7). -/
def Obligations.HostWriteWhileBusyIsAHazard : Prop :=
  (∀ (s : State) (a : Nat) (b : Byte) (v : Word), s.status.busy = true →
    (a < 32768 → ∀ f, f ∈ (hostAct (.srcWrite a b) s).faults ↔ f ∈ s.faults ∨ f = .hostHazard (.src a)) ∧
    (∀ f, f ∈ (hostAct (.ctrlWrite 0x08 32 v) s).faults ↔ f ∈ s.faults ∨ f = .hostHazard .srcLen) ∧
    ((∀ g, .hostHazard g ∉ s.faults) →
      (a < 32768 → step (hostAct (.srcWrite a b) s) = .fault (.hostHazard (.src a))) ∧
      step (hostAct (.ctrlWrite 0x08 32 v) s) = .fault (.hostHazard .srcLen))) ∧
  ∀ (s : State) (g : HazardTarget), .hostHazard g ∈ s.faults →
    ∃ g', .hostHazard g' ∈ s.faults ∧ step s = .fault (.hostHazard g')

/-- R55, R56: a whole-pixel read and byte reads of a written OUT cell return the byte image R, G, B, and 0xFF when
`OUT_ALPHA`; nothing but the returned data changes. -/
def Obligations.OutReadsReturnTheByteImage : Prop :=
  ∀ (s : State) (k : Nat) (px : Rgb), k < 64000 → Cells.read s.out k = some px →
    (s.config.outAlpha = true →
      hostAct (.outReadPixel k) s = { s with readData := some (.pixel [px.r, px.g, px.b, 0xFF]) } ∧
      hostAct (.outReadByte (k * 4 + 0)) s = { s with readData := some (.byte px.r) } ∧
      hostAct (.outReadByte (k * 4 + 1)) s = { s with readData := some (.byte px.g) } ∧
      hostAct (.outReadByte (k * 4 + 2)) s = { s with readData := some (.byte px.b) } ∧
      hostAct (.outReadByte (k * 4 + 3)) s = { s with readData := some (.byte 0xFF) }) ∧
    (s.config.outAlpha = false →
      hostAct (.outReadPixel k) s = { s with readData := some (.pixel [px.r, px.g, px.b]) } ∧
      hostAct (.outReadByte (k * 3 + 0)) s = { s with readData := some (.byte px.r) } ∧
      hostAct (.outReadByte (k * 3 + 1)) s = { s with readData := some (.byte px.g) } ∧
      hostAct (.outReadByte (k * 3 + 2)) s = { s with readData := some (.byte px.b) })

/-- R56: an OUT read of a cell holding ⊥, an OUT read out of range and any OUT write add their record to FAULT, return
nothing and change nothing else. That a whole-pixel read out of range records the byte offset `k * BPP`, which R56 does not
give, is the model's own reading (log entry 9, DEDUCED). -/
def Obligations.BadOutAccessIsRefused : Prop :=
  ∀ (s : State) (o : Nat) (v : Byte),
    let bpp := if s.config.outAlpha then 4 else 3
    (o < 64000 * bpp → Cells.read s.out (o / bpp) = none →
      (∀ f, f ∈ (hostAct (.outReadByte o) s).faults ↔ f ∈ s.faults ∨ f = .unwrittenOut (o / bpp)) ∧
      hostAct (.outReadByte o) s = { s with readData := none, faults := (hostAct (.outReadByte o) s).faults }) ∧
    (64000 * bpp ≤ o →
      (∀ f, f ∈ (hostAct (.outReadByte o) s).faults ↔ f ∈ s.faults ∨ f = .hostOutRange o) ∧
      hostAct (.outReadByte o) s = { s with readData := none, faults := (hostAct (.outReadByte o) s).faults }) ∧
    (o < 64000 → Cells.read s.out o = none →
      (∀ f, f ∈ (hostAct (.outReadPixel o) s).faults ↔ f ∈ s.faults ∨ f = .unwrittenOut o) ∧
      hostAct (.outReadPixel o) s = { s with readData := none, faults := (hostAct (.outReadPixel o) s).faults }) ∧
    (64000 ≤ o →
      (∀ f, f ∈ (hostAct (.outReadPixel o) s).faults ↔ f ∈ s.faults ∨ f = .hostOutRange (o * bpp)) ∧
      hostAct (.outReadPixel o) s = { s with readData := none, faults := (hostAct (.outReadPixel o) s).faults }) ∧
    ((∀ f, f ∈ (hostAct (.outWrite o v) s).faults ↔ f ∈ s.faults ∨ f = .hostOutWrite o) ∧
      hostAct (.outWrite o v) s = { s with faults := (hostAct (.outWrite o v) s).faults })

/-- R68: the engine never writes SRC, SRC_LEN or CONFIG; the host never writes OUT or RESULT, except by reset. -/
def Obligations.EachMemoryHasOneWriter : Prop :=
  (∀ (s t : State) (pick : Nat), engineTurn pick s = .next t →
    (∀ a, Cells.read t.src a = Cells.read s.src a) ∧ t.srcLen = s.srcLen ∧ t.config = s.config) ∧
  (∀ (s : State) (a : HostAction), a ≠ .reset →
    (∀ k, Cells.read (hostAct a s).out k = Cells.read s.out k) ∧ (hostAct a s).result = s.result)

/-- R84, `LOAD img`, and R264: the image's first `min(n, 32768)` bytes stand in SRC; for a length `n` below 2^32, `n` stands in
SRC_LEN, and unless it is 32,768 it is one that SRC-reading commands refuse. For a length of 2^32 or more, that SRC_LEN gets
`n` modulo 2^32 is the model's own choice (log entry 15, DESIGN CHOICE). -/
def Obligations.LoadImagePutsTheBytesInSrc : Prop :=
  ∀ (s : State) (img : List Byte), s.status.busy = false →
    let t := (loadImage img).foldl (fun u act => hostAct act u) s
    (∀ i, i < min img.length 32768 → Cells.read t.src i = img[i]?) ∧
    (∀ i, min img.length 32768 ≤ i → Cells.read t.src i = Cells.read s.src i) ∧
    t = { s with src := t.src, srcLen := BitVec.ofNat 32 img.length } ∧
    (img.length ≠ 32768 → img.length < 2 ^ 32 → t.srcLen ≠ 32768)

/-! ## The step -/

/-- R20, R84: a host step performs the next action of the host's program, and goes on to the one after it, except that WAIT
stays while BUSY = 1, and except in a run that R270 refuses. The schedule and the list of host actions are the model's own
form of them (log entries 3 and 4, DESIGN CHOICE). -/
def Obligations.HostStepRunsTheNextAction : Prop :=
  ∀ (s : State) (a : HostAction) (rest : List HostAction), refusedBy s = none → s.prog = a :: rest →
    (∀ ts, s.turns = .host :: ts → step s = .next (hostAct a
      { s with turns := ts, prog := if a = .wait ∧ s.status.busy = true then a :: rest else rest })) ∧
    (s.turns = [] → s.status.busy = false → step s = .next (hostAct a { s with prog := rest }))

/-- R108: the engine's first step of an accepted word that decodes is `exec` of the command it decodes to; and a word placed
for the next step (the model's own `withFetchWord`, log entry 11) is the very next to run. -/
def Obligations.StepRunsTheDecodedCommand : Prop :=
  (∀ (s : State) (w : Word) (i : Instr), Accepted w s → decode w = .ok i →
    (∀ pick ts, s.turns = .engine pick :: ts → step s = exec i { s with turns := ts }) ∧
    (s.turns = [] → step s = exec i s)) ∧
  ∀ (s : State) (w : Nat) (i : Instr), w < 2 ^ 32 → decodeTableWord 32 w = some i →
    step (s.withFetchWord 32 w) = exec i { s.withFetchWord 32 w with turns := s.turns }

/-- R20, R52: the engine has no step while BUSY = 0, nor once FAULT holds an `UNWRITTEN_SRC` record, in a run that R270 does
not refuse. -/
def Obligations.EngineHasNoStepWhenIdleOrStuck : Prop :=
  ∀ (s : State) (pick : Nat) (ts : List Turn), refusedBy s = none → s.turns = .engine pick :: ts →
    s.status.busy = false ∨ (∃ a, .unwrittenSrc a ∈ s.faults) → step s = .next { s with turns := ts }

/-- R103, R220, R221: what `complete()` and `raise` do, for ACK and the other commands, and the error codes. -/
def Obligations.CompletionAndErrorsEndTheCommand : Prop :=
  ∀ s : State,
    completeCommand s = ended s ∧
    completeAck s = { s with pend := [], cur := none, status := { s.status with busy := false, ovr := false } } ∧
    raiseError .fmtSize s = endedWith 1 s ∧ raiseError .illegalCmd s = endedWith 2 s ∧
    raiseError .argRange s = endedWith 3 s

/-- R277 as the model takes it (log entry 6): where a run has ended, nothing changes any more; where no agent has a step and
FAULT holds records, none of them a `HOST_HAZARD` (R270), the step answers the first of them. -/
def Obligations.EndedRunsRestAndFailedRunsFault : Prop :=
  ∀ s : State, s.turns = [] →
    (EndOfRun s → step s = .next s) ∧
    (∀ f fs, refusedBy s = none → s.prog = [] → s.faults = f :: fs → s.status.busy = false ∨ (∃ a, .unwrittenSrc a ∈ s.faults) →
      step s = .fault f)

/-! ## The commands -/

/-- R105: NOP completes from every state, whatever SRC_LEN and SRC hold. -/
def Obligations.NopCompletes : Prop :=
  encode .nop = 0x00000000 ∧ IllegalWith 0 0xFFFFFFF0 ∧ ∀ s : State, exec .nop s = .next (ended s)

/-- R106: VALID completes exactly when `SRC_LEN = 32768`, else it raises FMT_SIZE. -/
def Obligations.ValidChecksTheLength : Prop :=
  encode .valid = 0x00000001 ∧ IllegalWith 1 0xFFFFFFF0 ∧
  ∀ s : State,
    (s.srcLen = 32768 → exec .valid s = .next (ended s)) ∧ (s.srcLen ≠ 32768 → exec .valid s = .next (endedWith 1 s))

/-- R107: ACK completes from every state, clears OVR, and does not set DONE; executed as it is accepted (R101), it leaves
STATUS = 0. -/
def Obligations.AckClearsTheStatus : Prop :=
  encode .ack = 0x00000009 ∧ IllegalWith 9 0xFFFFFFF0 ∧
  (∀ s : State, exec .ack s =
    .next { s with pend := [], cur := none, status := { s.status with busy := false, ovr := false } }) ∧
  ∀ s t : State, s.status.busy = false →
    exec .ack (hostAct (.ctrlWrite 0x00 32 (encode .ack)) s) = .next t → t.status.word = 0

/-- R124: RSCB. -/
def Obligations.RscbResolvesTheSelector : Prop :=
  IllegalWith 2 0xFFFFF000 ∧
  ∀ y : BitVec 8, encode (.rscb y) = 0x2 ||| y.setWidth 32 <<< 4 ∧
  ∀ s : State,
    (200 ≤ y.toNat → exec (.rscb y) s = .next (endedWith 3 s)) ∧
    (y.toNat < 200 → s.srcLen ≠ 32768 → exec (.rscb y) s = .next (endedWith 1 s)) ∧
    (y.toNat < 200 → s.srcLen = 32768 →
      (∀ scb, Cells.read s.src (32000 + y.toNat) = some scb →
        exec (.rscb y) s =
          .next (ended { s with result := scb.setWidth 32 <<< 8 ||| (scb &&& 0x0F).setWidth 32 })) ∧
      (Cells.read s.src (32000 + y.toNat) = none →
        exec (.rscb y) s = .next (addFault (.unwrittenSrc (32000 + y.toNat)) s)))

/-- R144: UNPK. -/
def Obligations.UnpkUnpacksTheNibble : Prop :=
  IllegalWith 3 0xFFE00000 ∧
  ∀ (y : BitVec 8) (x : BitVec 9), encode (.unpk y x) = 0x3 ||| y.setWidth 32 <<< 4 ||| x.setWidth 32 <<< 12 ∧
  ∀ s : State,
    (200 ≤ y.toNat ∨ 320 ≤ x.toNat → exec (.unpk y x) s = .next (endedWith 3 s)) ∧
    (y.toNat < 200 → x.toNat < 320 → s.srcLen ≠ 32768 → exec (.unpk y x) s = .next (endedWith 1 s)) ∧
    (y.toNat < 200 → x.toNat < 320 → s.srcLen = 32768 →
      (∀ sb, Cells.read s.src (y.toNat * 160 + x.toNat / 2) = some sb →
        exec (.unpk y x) s = .next (ended { s with
          result := sb.setWidth 32 <<< 8 |||
            (if x.toNat % 2 = 0 then sb >>> 4 else sb &&& 0x0F).setWidth 32 })) ∧
      (Cells.read s.src (y.toNat * 160 + x.toNat / 2) = none →
        exec (.unpk y x) s = .next (addFault (.unwrittenSrc (y.toNat * 160 + x.toNat / 2)) s)))

/-- R168: PFET. The low byte is read first. -/
def Obligations.PfetFetchesThePaletteWord : Prop :=
  IllegalWith 4 0xFFFFF000 ∧
  ∀ p c : Nibble, encode (.pfet p c) = 0x4 ||| p.setWidth 32 <<< 4 ||| c.setWidth 32 <<< 8 ∧
  ∀ s : State,
    (s.srcLen ≠ 32768 → exec (.pfet p c) s = .next (endedWith 1 s)) ∧
    (s.srcLen = 32768 →
      (∀ b0 b1, Cells.read s.src (32256 + 2 * (16 * p.toNat + c.toNat)) = some b0 →
        Cells.read s.src (32256 + 2 * (16 * p.toNat + c.toNat) + 1) = some b1 →
        exec (.pfet p c) s = .next (ended { s with result := b0.setWidth 32 ||| b1.setWidth 32 <<< 8 })) ∧
      (Cells.read s.src (32256 + 2 * (16 * p.toNat + c.toNat)) = none →
        exec (.pfet p c) s = .next (addFault (.unwrittenSrc (32256 + 2 * (16 * p.toNat + c.toNat))) s)) ∧
      (∀ b0, Cells.read s.src (32256 + 2 * (16 * p.toNat + c.toNat)) = some b0 →
        Cells.read s.src (32256 + 2 * (16 * p.toNat + c.toNat) + 1) = none →
        exec (.pfet p c) s = .next (addFault (.unwrittenSrc (32256 + 2 * (16 * p.toNat + c.toNat) + 1)) s)))

/-- R169: ASMB, under any channel layout; it completes from every state. -/
def Obligations.AsmbAssemblesTheColour : Prop :=
  IllegalWith 5 0x0000FFF0 ∧
  ∀ e : Entry, encode (.asmb e) = 0x5 ||| e.setWidth 32 <<< 16 ∧
  ∀ s : State, ∃ v : Word,
    exec (.asmb e) s = .next (ended { s with result := v }) ∧
    v.toNat = e.toNat / 2 ^ s.config.layout.rLo.bit % 16 * 17 + e.toNat / 2 ^ s.config.layout.gLo.bit % 16 * 17 * 2 ^ 8 +
      e.toNat / 2 ^ s.config.layout.bLo.bit % 16 * 17 * 2 ^ 16 + 255 * 2 ^ 24

/-- R192: DPIX on a pixel whose four bytes are written: the OUT cell `y * 320 + x` and RESULT get the colour, no other OUT
cell changes, and the command completes; on an error, or a byte holding ⊥, neither OUT nor RESULT changes. -/
def Obligations.DpixDecodesOnePixel : Prop :=
  IllegalWith 6 0xFFE00000 ∧
  ∀ (y : BitVec 8) (x : BitVec 9), encode (.dpix y x) = 0x6 ||| y.setWidth 32 <<< 4 ||| x.setWidth 32 <<< 12 ∧
  ∀ s : State,
    (200 ≤ y.toNat ∨ 320 ≤ x.toNat → exec (.dpix y x) s = .next (endedWith 3 s)) ∧
    (y.toNat < 200 → x.toNat < 320 → s.srcLen ≠ 32768 → exec (.dpix y x) s = .next (endedWith 1 s)) ∧
    (y.toNat < 200 → x.toNat < 320 → s.srcLen = 32768 →
      (∀ px, pixelColour s y.toNat x.toNat = .ok px → ∃ out : Raster,
        exec (.dpix y x) s = .next (ended { s with
          out := out
          result := px.r.setWidth 32 ||| px.g.setWidth 32 <<< 8 ||| px.b.setWidth 32 <<< 16 ||| 0xFF#32 <<< 24 }) ∧
        Cells.read out (y.toNat * 320 + x.toNat) = some px ∧
        ∀ k, k ≠ y.toNat * 320 + x.toNat → Cells.read out k = Cells.read s.out k) ∧
      (∀ f, pixelColour s y.toNat x.toNat = .error f → exec (.dpix y x) s = .next (addFault f s)))

/-- R193, R196: DLIN's first engine step on a legal row and a right length answers a state that differs only in PEND, which
holds exactly the row's 320 positions, each once; its errors write nothing. -/
def Obligations.DlinFirstStepFillsPend : Prop :=
  IllegalWith 7 0xFFFFF000 ∧
  ∀ y : BitVec 8, encode (.dlin y) = 0x7 ||| y.setWidth 32 <<< 4 ∧
  ∀ s : State,
    (200 ≤ y.toNat → exec (.dlin y) s = .next (endedWith 3 s)) ∧
    (y.toNat < 200 → s.srcLen ≠ 32768 → exec (.dlin y) s = .next (endedWith 1 s)) ∧
    (y.toNat < 200 → s.srcLen = 32768 → ∃ ps : List Pixel,
      exec (.dlin y) s = .next { s with pend := ps } ∧ ps.Nodup ∧ ps.length = 320 ∧
      ∀ p, p ∈ ps ↔ p.y = y.toNat ∧ p.x < 320)

/-- R194, R196: DFRM's first engine step with a right length answers a state that differs only in PEND, which holds exactly
the 64,000 positions, each once; a size error writes nothing. -/
def Obligations.DfrmFirstStepFillsPend : Prop :=
  encode .dfrm = 0x00000008 ∧ IllegalWith 8 0xFFFFFFF0 ∧
  ∀ s : State,
    (s.srcLen ≠ 32768 → exec .dfrm s = .next (endedWith 1 s)) ∧
    (s.srcLen = 32768 → ∃ ps : List Pixel,
      exec .dfrm s = .next { s with pend := ps } ∧ ps.Nodup ∧ ps.length = 64000 ∧
      ∀ p, p ∈ ps ↔ p.y < 200 ∧ p.x < 320)

/-! ## Errors -/

/-- R225: a command reports the first of ILLEGAL_CMD, ARG_RANGE and FMT_SIZE that applies. -/
def Obligations.ErrorsComeInPriorityOrder : Prop :=
  ∀ (s : State) (w : Word) (pick : Nat) (ts : List Turn), Accepted w s → s.turns = .engine pick :: ts →
    (∀ r, decode w = .error r → step s = .next (endedWith 2 { s with turns := ts })) ∧
    (∀ i, decode w = .ok i → i.WellFormed = false → step s = .next (endedWith 3 { s with turns := ts })) ∧
    (∀ i, decode w = .ok i → i.WellFormed = true → i ≠ .nop → i ≠ .ack → (∀ e, i ≠ .asmb e) → s.srcLen ≠ 32768 →
      step s = .next (endedWith 1 { s with turns := ts }))

/-- R226: an erroring command changes nothing but BUSY, ERR, ERRCODE and CUR from its accept on (DONE was cleared there). -/
def Obligations.ErrorsArePrecise : Prop :=
  ∀ (s t : State) (w : Word) (pick : Nat) (ts : List Turn), Accepted w s → s.status.err = false →
    s.turns = .engine pick :: ts → step s = .next t → t.status.err = true →
    t.result = s.result ∧ t.pend = s.pend ∧ t.srcLen = s.srcLen ∧ t.config = s.config ∧ t.faults = s.faults ∧
    (∀ a, Cells.read t.src a = Cells.read s.src a) ∧ (∀ k, Cells.read t.out k = Cells.read s.out k) ∧
    t.status.done = s.status.done ∧ t.status.ovr = s.status.ovr ∧ t.status.busy = false ∧ t.cur = none

/-- R52: an engine step that reads a cell holding ⊥ adds `UNWRITTEN_SRC` and writes nothing; BUSY and CUR remain, and no
later engine turn does anything. -/
def Obligations.UnwrittenSrcStopsTheEngine : Prop :=
  ∀ (s : State) (p : Pixel) (f : Fault) (pick : Nat) (ts : List Turn),
    s.status.busy = true → s.cur.isSome = true → engineStuck s = false → refusedBy s = none →
    s.turns = .engine pick :: ts → s.pend[pick % s.pend.length]? = some p → pixelColour s p.y p.x = .error f →
    ∃ a t, f = .unwrittenSrc a ∧ Cells.read s.src a = none ∧ step s = .next t ∧
      t = { s with turns := ts, faults := t.faults } ∧ (∀ g, g ∈ t.faults ↔ g ∈ s.faults ∨ g = .unwrittenSrc a) ∧
      ∀ n, engineTurn n t = .next t

/-! ## Frames -/

/-- Frame of the commands that store nothing and return no value: NOP, VALID, ACK. RESULT, both memories and every other
register stay; OVR stays but for ACK. -/
def Obligations.ControlCommandFrame : Prop :=
  ∀ (i : Instr) (s t : State), i = .nop ∨ i = .valid ∨ i = .ack → exec i s = .next t →
    KeepsInputs s t ∧ (∀ k, Cells.read t.out k = Cells.read s.out k) ∧ t.result = s.result ∧ t.faults = s.faults ∧
    (i ≠ .ack → t.status.ovr = s.status.ovr) ∧
    (t.status.err = s.status.err ∧ t.status.errCode = s.status.errCode ∨ t.status.done = s.status.done)

/-- Frame of the commands that return a value and store nothing: RSCB, UNPK, PFET, ASMB. Every byte of SRC and every cell of
OUT stays, OVR stays, and RESULT changes only if the command completes. -/
def Obligations.ValueCommandFrame : Prop :=
  ∀ (i : Instr) (s t : State),
    (∃ y, i = .rscb y) ∨ (∃ y x, i = .unpk y x) ∨ (∃ p c, i = .pfet p c) ∨ (∃ e, i = .asmb e) → exec i s = .next t →
    KeepsInputs s t ∧ (∀ k, Cells.read t.out k = Cells.read s.out k) ∧ t.status.ovr = s.status.ovr ∧
    (t.status = s.status ∧ t.cur = s.cur ∧ t.pend = s.pend ∧ t.result = s.result ∨
      t.faults = s.faults ∧ t.cur = none ∧ t.pend = [] ∧ t.status.busy = false ∧
        (t.status.err = true ∧ t.status.done = s.status.done ∧ t.result = s.result ∨
          t.status.done = true ∧ t.status.err = s.status.err ∧ t.status.errCode = s.status.errCode))

/-- Frame of DPIX: no OUT cell but `pixelNumber ⟨y, x⟩` changes (R201), SRC and the registers it does not name stay. -/
def Obligations.DpixFrame : Prop :=
  ∀ (y : BitVec 8) (x : BitVec 9) (s t : State), exec (.dpix y x) s = .next t →
    KeepsInputs s t ∧ t.status.ovr = s.status.ovr ∧
    (∀ k, k ≠ pixelNumber ⟨y.toNat, x.toNat⟩ → Cells.read t.out k = Cells.read s.out k) ∧
    (t.status.err = true ∧ s.status.err = false ∨ t.status.busy = true →
      t.result = s.result ∧ ∀ k, Cells.read t.out k = Cells.read s.out k)

/-- Frame of the first step of DLIN and DFRM: they store nothing and leave RESULT (R196). -/
def Obligations.LineAndFrameFirstStepFrame : Prop :=
  ∀ (i : Instr) (s t : State), (∃ y, i = .dlin y) ∨ i = .dfrm → exec i s = .next t →
    KeepsInputs s t ∧ (∀ k, Cells.read t.out k = Cells.read s.out k) ∧ t.result = s.result ∧ t.faults = s.faults ∧
    t.status.ovr = s.status.ovr ∧ t.status.done = s.status.done ∧
    (t.status = s.status ∧ t.cur = s.cur ∨ t.status.err = true ∧ t.status.busy = false ∧ t.cur = none ∧ t.pend = [])

/-! ## The datapath -/

/-- R51: every SRC address of a command with legal operands is in its region. -/
def Obligations.EngineAddressesAreInRange : Prop :=
  ∀ (y x : Nat) (p c : Nibble), y < 200 → x < 320 →
    (32000 ≤ scbAddr y ∧ scbAddr y ≤ 32199) ∧ byteIndex y x ≤ 31999 ∧
    (32256 ≤ paletteLoAddr p c ∧ paletteLoAddr p c % 2 = 0) ∧
    paletteHiAddr p c = paletteLoAddr p c + 1 ∧ paletteHiAddr p c ≤ 32767 ∧ pixelNumber ⟨y, x⟩ < 64000

/-- R163, R164, R165: under every layout each channel is the entry's 4-bit field at its position, widened by exact
multiplication by 17, which is strictly increasing; with the layout (8, 4, 0) bits 15:12 of the entry never affect the
colour. That this layout is the default is the spec's own choice (log entry 1). -/
def Obligations.ColourAssemblyIsExact : Prop :=
  (∀ (l : Config.ChanLayout) (e : Entry),
    (assemble l e).nats =
      (e.toNat / 2 ^ l.rLo.bit % 16 * 17, e.toNat / 2 ^ l.gLo.bit % 16 * 17, e.toNat / 2 ^ l.bLo.bit % 16 * 17)) ∧
  (∀ v : Nibble, (widen v).toNat = v.toNat * 17 ∧ (widen v).toNat = v.toNat * 16 + v.toNat) ∧
  (∀ v w : Nibble, v.toNat < w.toNat → (widen v).toNat < (widen w).toNat) ∧
  ∀ e e' : Entry, e &&& 0x0FFF = e' &&& 0x0FFF →
    assemble { rLo := .p8, gLo := .p4, bLo := .p0 } e = assemble { rLo := .p8, gLo := .p4, bLo := .p0 } e'

/-- R190: the machine's pixel is the plain-arithmetic pixel of the image in SRC, for every image, position and layout. -/
def Obligations.PixelRefinesTheImageFunction : Prop :=
  ∀ (s : State) (img : Nat → Nat) (y x : Nat), y < 200 → x < 320 →
    (∀ a, a < 32768 → (Cells.read s.src a).map BitVec.toNat = some (img a)) →
    ∃ px, pixelColour s y x = .ok px ∧ px.nats = imagePixel s.config.layout img y x

/-- R191: a pixel reads its four bytes in order, the record names the first that holds ⊥, and no other byte of SRC affects
it. -/
def Obligations.PixelReadsFourBytesInOrder : Prop :=
  ∀ (s : State) (y x : Nat),
    (Cells.read s.src (32000 + y) = none → pixelColour s y x = .error (.unwrittenSrc (32000 + y))) ∧
    ∀ scb, Cells.read s.src (32000 + y) = some scb →
      (Cells.read s.src (y * 160 + x / 2) = none → pixelColour s y x = .error (.unwrittenSrc (y * 160 + x / 2))) ∧
      ∀ sb, Cells.read s.src (y * 160 + x / 2) = some sb →
        let k := 16 * (scb.toNat % 16) + (if x % 2 = 0 then sb.toNat / 16 else sb.toNat % 16)
        (Cells.read s.src (32256 + 2 * k) = none →
          pixelColour s y x = .error (.unwrittenSrc (32256 + 2 * k))) ∧
        (∀ b0, Cells.read s.src (32256 + 2 * k) = some b0 → Cells.read s.src (32256 + 2 * k + 1) = none →
          pixelColour s y x = .error (.unwrittenSrc (32256 + 2 * k + 1))) ∧
        (∀ t : State, t.config = s.config →
          (∀ a, a = 32000 + y ∨ a = y * 160 + x / 2 ∨ a = 32256 + 2 * k ∨ a = 32256 + 2 * k + 1 →
            Cells.read t.src a = Cells.read s.src a) → pixelColour t y x = pixelColour s y x)

/-- R121: bits 7:4 of a selector byte affect no pixel and no palette index, whichever row it belongs to; and selector entries
200 to 255 are never read by any command: whatever is written there, the first step of every command, and every engine step
of every state that meets the invariant (the pixel steps of DLIN and DFRM among them), answer the same, with that byte in
place. -/
def Obligations.SelectorHighBitsAndPaddingHaveNoEffect : Prop :=
  (∀ (s : State) (row : Nat) (scb scb' : Byte), row < 200 → scb.toNat % 16 = scb'.toNat % 16 →
    ∀ y x, y < 200 → x < 320 →
      pixelColour (srcWrite (32000 + row) scb s) y x = pixelColour (srcWrite (32000 + row) scb' s) y x ∧
      pidx (srcWrite (32000 + row) scb s) y = pidx (srcWrite (32000 + row) scb' s) y) ∧
  (∀ (i : Instr) (s t : State) (a : Nat) (v : Byte), 32200 ≤ a → a ≤ 32255 → exec i s = .next t →
    exec i (srcWrite a v s) = .next (srcWrite a v t)) ∧
  (∀ (s t : State) (pick a : Nat) (v : Byte), Invariant s → 32200 ≤ a → a ≤ 32255 → engineTurn pick s = .next t →
    engineTurn pick (srcWrite a v s) = .next (srcWrite a v t))

/-! ## Lines and frames -/

/-- R195: a pixel step writes the picked pending pixel to its own OUT cell, takes it out of PEND, and completes the command
when none is left; nothing else changes. -/
def Obligations.PixelStepWritesOnePendingPixel : Prop :=
  ∀ (s : State) (p : Pixel) (px : Rgb) (pick : Nat) (ts : List Turn),
    s.status.busy = true → s.cur.isSome = true → engineStuck s = false → refusedBy s = none →
    s.turns = .engine pick :: ts → s.pend[pick % s.pend.length]? = some p → pixelColour s p.y p.x = .ok px →
    ∃ (out : Raster) (rest : List Pixel),
      rest = s.pend.eraseIdx (pick % s.pend.length) ∧
      Cells.read out (p.y * 320 + p.x) = some px ∧
      (∀ k, k ≠ p.y * 320 + p.x → Cells.read out k = Cells.read s.out k) ∧
      (rest ≠ [] → step s = .next { s with turns := ts, out := out, pend := rest }) ∧
      (rest = [] → step s = .next (ended { s with turns := ts, out := out }))

/-- R14, R197: the choice is free: every pending pixel is the one some scheduler's turn takes. -/
def Obligations.EveryPendingPixelMayComeNext : Prop :=
  ∀ (s : State) (p : Pixel) (px : Rgb), s.status.busy = true → s.cur.isSome = true → engineStuck s = false →
    refusedBy s = none → p ∈ s.pend → pixelColour s p.y p.x = .ok px →
    ∃ pick, ∀ ts, ∃ t, step { s with turns := .engine pick :: ts } = .next t ∧
      Cells.read t.out (p.y * 320 + p.x) = some px ∧ t.pend = s.pend.erase p

/-- R193, R276: an accepted DLIN on a legal row, with a right length and its bytes written, runs in 321 engine steps,
whatever pixels they take, to a completed command; the row's OUT cells hold its pixels and nothing else has changed. -/
def Obligations.DlinDecodesTheRow : Prop :=
  ∀ (s : State) (y : BitVec 8), Accepted (encode (.dlin y)) s → y.toNat < 200 → s.srcLen = 32768 →
    (∀ x, x < 320 → Readable s y.toNat x) → EngineMoves 321 s →
    ∃ t, Host.Core.run Sys2Proof.core 321 s = .next t ∧
      (∀ x px, x < 320 → pixelColour s y.toNat x = .ok px → Cells.read t.out (y.toNat * 320 + x) = some px) ∧
      (∀ k, k < y.toNat * 320 ∨ y.toNat * 320 + 320 ≤ k → Cells.read t.out k = Cells.read s.out k) ∧
      t = ended { s with out := t.out, turns := s.turns.drop 321, draws := t.draws }

/-- R194, R276: an accepted DFRM, with a right length and every pixel's bytes written, runs in 64,001 engine steps, whatever
pixels they take, to a completed command with every OUT cell written. -/
def Obligations.DfrmDecodesTheFrame : Prop :=
  ∀ s : State, Accepted (encode .dfrm) s → s.srcLen = 32768 →
    (∀ y x, y < 200 → x < 320 → Readable s y x) → EngineMoves 64001 s →
    ∃ t, Host.Core.run Sys2Proof.core 64001 s = .next t ∧
      (∀ y x px, y < 200 → x < 320 → pixelColour s y x = .ok px → Cells.read t.out (y * 320 + x) = some px) ∧
      (∀ k, 64000 ≤ k → Cells.read t.out k = Cells.read s.out k) ∧
      t = ended { s with out := t.out, turns := s.turns.drop 64001, draws := t.draws }

/-- R197: every order of a frame's pixel steps gives the same final state, OUT included as data; only what is left of the
schedule may differ. -/
def Obligations.PixelOrderDoesNotMatter : Prop :=
  ∀ (s u t v : State), SameRunBut s u → Raster.wf s.out = true → Accepted (encode .dfrm) s → s.srcLen = 32768 →
    (∀ y x, y < 200 → x < 320 → Readable s y x) → EngineMoves 64001 s → EngineMoves 64001 u →
    Host.Core.run Sys2Proof.core 64001 s = .next t → Host.Core.run Sys2Proof.core 64001 u = .next v →
    SameRunBut t v

/-- R199: a row after DFRM on one image equals that row after DLIN on another, if the two agree on the row's bitmap bytes,
its selector byte, the palettes and the layout. -/
def Obligations.RowsAreIndependent : Prop :=
  ∀ (s u t v : State) (y : BitVec 8), y.toNat < 200 →
    Accepted (encode .dfrm) s → s.srcLen = 32768 → (∀ y x, y < 200 → x < 320 → Readable s y x) → EngineMoves 64001 s →
    Accepted (encode (.dlin y)) u → u.srcLen = 32768 → (∀ x, x < 320 → Readable u y.toNat x) → EngineMoves 321 u →
    s.config.layout = u.config.layout →
    (∀ a, y.toNat * 160 ≤ a ∧ a < y.toNat * 160 + 160 ∨ a = 32000 + y.toNat ∨ 32256 ≤ a ∧ a < 32768 →
      Cells.read s.src a = Cells.read u.src a) →
    Host.Core.run Sys2Proof.core 64001 s = .next t → Host.Core.run Sys2Proof.core 321 u = .next v →
    ∀ x, x < 320 → Cells.read t.out (y.toNat * 320 + x) = Cells.read v.out (y.toNat * 320 + x)

/-- R200: an all-zero image decodes to an all-black frame, under every layout and whatever the other palette bytes hold. -/
def Obligations.AllZeroImageIsBlack : Prop :=
  ∀ s : State, Accepted (encode .dfrm) s → s.srcLen = 32768 → EngineMoves 64001 s →
    (∀ a, a < 32000 → Cells.read s.src a = some 0) → (∀ y, y < 200 → Cells.read s.src (32000 + y) = some 0) →
    Cells.read s.src 32256 = some 0 → Cells.read s.src 32257 = some 0 →
    ∃ t, Host.Core.run Sys2Proof.core 64001 s = .next t ∧
      ∀ k, k < 64000 → Cells.read t.out k = some { r := 0, g := 0, b := 0 }

/-- R84's `DECODE img` on an idle block, as MC320's `decode(bytes) → raster`: the host loads any 32,768-byte image, runs DFRM
and waits; the run ends with DONE, the host's program used up, and OUT holding the image's raster. It rests on the model's
default schedule (log entry 3). -/
def Obligations.DecodeImageGivesTheRaster : Prop :=
  ∀ (s : State) (img : List Byte), img.length = 32768 → s.status.busy = false → s.pend = [] → s.faults = [] →
    s.turns = [] → s.prog = decodeImage img →
    ∃ t, Host.Core.run Sys2Proof.core 96772 s = .next t ∧ EndOfRun t ∧ t.status.done = true ∧ t.status.err = false ∧
      ∀ y x, y < 200 → x < 320 → ∃ px, Cells.read t.out (y * 320 + x) = some px ∧
        px.nats = imagePixel s.config.layout (fun a => (img.getD a 0).toNat) y x

/-! ## Invariants -/

/-- The invariant holds after reset (R25, R30 to R32, R36). That reset carries the spec's default layout, whose positions are
distinct, is log entry 1 (PRESUMED). -/
def Obligations.ResetMeetsTheInvariant : Prop := Invariant State.reset

/-- Every step from every state that meets the invariant, by either agent, leads to one that meets it (R25, R30 to R32). -/
def Obligations.StepKeepsTheInvariant : Prop := ∀ s t : State, Invariant s → step s = .next t → Invariant t

/-- R25, R32, R64: in every state that any host program under any schedule reaches, the STATUS invariants hold, BUSY is 1
exactly when a command is in CUR, and PEND is empty while BUSY is 0: no OUT write of a command is still to come once STATUS
reads BUSY = 0. -/
def Obligations.ReachableStatusIsLegal : Prop :=
  ∀ (c : Config.Params) (prog : List HostAction) (turns : List Turn) (n : Nat) (t : State), c.layout.distinct = true →
    Host.Core.run Sys2Proof.core n (startState c prog turns) = .next t →
    (t.status.busy = true → t.status.done = false ∧ t.status.err = false) ∧
    (t.status.done = true → t.status.err = false) ∧ (t.status.err = false ↔ t.status.errCode = 0) ∧
    t.status.errCode.toNat ≤ 3 ∧ (t.status.busy = true ↔ t.cur ≠ none) ∧ (t.status.busy = false → t.pend = [])

/-- R35: no step ever clears a FAULT record. -/
def Obligations.FaultRecordsAreNeverCleared : Prop :=
  ∀ (s t : State) (f : Fault), step s = .next t → f ∈ s.faults → f ∈ t.faults
end

