-- ==== Sys2Proof/Laws/State.lean ====
section
/-! SUPPORT. One lemma per field per state update, so that no proof unfolds a record update. -/

namespace Sys2Proof.Machine

variable (s : State) (st : Status)

/-! ### `srcWrite` -/

@[simp] theorem srcWrite_config (a : Nat) (v : Byte) : (srcWrite a v s).config = s.config := rfl
@[simp] theorem srcWrite_status (a : Nat) (v : Byte) : (srcWrite a v s).status = s.status := rfl
@[simp] theorem srcWrite_srcLen (a : Nat) (v : Byte) : (srcWrite a v s).srcLen = s.srcLen := rfl
@[simp] theorem srcWrite_result (a : Nat) (v : Byte) : (srcWrite a v s).result = s.result := rfl
@[simp] theorem srcWrite_src (a : Nat) (v : Byte) : (srcWrite a v s).src = Cells.write s.src a v := rfl
@[simp] theorem srcWrite_out (a : Nat) (v : Byte) : (srcWrite a v s).out = s.out := rfl
@[simp] theorem srcWrite_cur (a : Nat) (v : Byte) : (srcWrite a v s).cur = s.cur := rfl
@[simp] theorem srcWrite_pend (a : Nat) (v : Byte) : (srcWrite a v s).pend = s.pend := rfl
@[simp] theorem srcWrite_faults (a : Nat) (v : Byte) : (srcWrite a v s).faults = s.faults := rfl
@[simp] theorem srcWrite_prog (a : Nat) (v : Byte) : (srcWrite a v s).prog = s.prog := rfl
@[simp] theorem srcWrite_turns (a : Nat) (v : Byte) : (srcWrite a v s).turns = s.turns := rfl
@[simp] theorem srcWrite_draws (a : Nat) (v : Byte) : (srcWrite a v s).draws = s.draws := rfl
@[simp] theorem srcWrite_readData (a : Nat) (v : Byte) : (srcWrite a v s).readData = s.readData := rfl

/-! ### `outWrite` -/

@[simp] theorem outWrite_config (k : Nat) (px : Rgb) : (outWrite k px s).config = s.config := rfl
@[simp] theorem outWrite_status (k : Nat) (px : Rgb) : (outWrite k px s).status = s.status := rfl
@[simp] theorem outWrite_srcLen (k : Nat) (px : Rgb) : (outWrite k px s).srcLen = s.srcLen := rfl
@[simp] theorem outWrite_result (k : Nat) (px : Rgb) : (outWrite k px s).result = s.result := rfl
@[simp] theorem outWrite_src (k : Nat) (px : Rgb) : (outWrite k px s).src = s.src := rfl
@[simp] theorem outWrite_out (k : Nat) (px : Rgb) : (outWrite k px s).out = Cells.write s.out k px := rfl
@[simp] theorem outWrite_cur (k : Nat) (px : Rgb) : (outWrite k px s).cur = s.cur := rfl
@[simp] theorem outWrite_pend (k : Nat) (px : Rgb) : (outWrite k px s).pend = s.pend := rfl
@[simp] theorem outWrite_faults (k : Nat) (px : Rgb) : (outWrite k px s).faults = s.faults := rfl
@[simp] theorem outWrite_prog (k : Nat) (px : Rgb) : (outWrite k px s).prog = s.prog := rfl
@[simp] theorem outWrite_turns (k : Nat) (px : Rgb) : (outWrite k px s).turns = s.turns := rfl
@[simp] theorem outWrite_draws (k : Nat) (px : Rgb) : (outWrite k px s).draws = s.draws := rfl
@[simp] theorem outWrite_readData (k : Nat) (px : Rgb) : (outWrite k px s).readData = s.readData := rfl

/-! ### `setResult` -/

@[simp] theorem setResult_config (v : Word) : (setResult v s).config = s.config := rfl
@[simp] theorem setResult_status (v : Word) : (setResult v s).status = s.status := rfl
@[simp] theorem setResult_srcLen (v : Word) : (setResult v s).srcLen = s.srcLen := rfl
@[simp] theorem setResult_result (v : Word) : (setResult v s).result = v := rfl
@[simp] theorem setResult_src (v : Word) : (setResult v s).src = s.src := rfl
@[simp] theorem setResult_out (v : Word) : (setResult v s).out = s.out := rfl
@[simp] theorem setResult_cur (v : Word) : (setResult v s).cur = s.cur := rfl
@[simp] theorem setResult_pend (v : Word) : (setResult v s).pend = s.pend := rfl
@[simp] theorem setResult_faults (v : Word) : (setResult v s).faults = s.faults := rfl
@[simp] theorem setResult_prog (v : Word) : (setResult v s).prog = s.prog := rfl
@[simp] theorem setResult_turns (v : Word) : (setResult v s).turns = s.turns := rfl
@[simp] theorem setResult_draws (v : Word) : (setResult v s).draws = s.draws := rfl
@[simp] theorem setResult_readData (v : Word) : (setResult v s).readData = s.readData := rfl

/-! ### `setSrcLen` -/

@[simp] theorem setSrcLen_config (v : Word) : (setSrcLen v s).config = s.config := rfl
@[simp] theorem setSrcLen_status (v : Word) : (setSrcLen v s).status = s.status := rfl
@[simp] theorem setSrcLen_srcLen (v : Word) : (setSrcLen v s).srcLen = v := rfl
@[simp] theorem setSrcLen_result (v : Word) : (setSrcLen v s).result = s.result := rfl
@[simp] theorem setSrcLen_src (v : Word) : (setSrcLen v s).src = s.src := rfl
@[simp] theorem setSrcLen_out (v : Word) : (setSrcLen v s).out = s.out := rfl
@[simp] theorem setSrcLen_cur (v : Word) : (setSrcLen v s).cur = s.cur := rfl
@[simp] theorem setSrcLen_pend (v : Word) : (setSrcLen v s).pend = s.pend := rfl
@[simp] theorem setSrcLen_faults (v : Word) : (setSrcLen v s).faults = s.faults := rfl
@[simp] theorem setSrcLen_prog (v : Word) : (setSrcLen v s).prog = s.prog := rfl
@[simp] theorem setSrcLen_turns (v : Word) : (setSrcLen v s).turns = s.turns := rfl
@[simp] theorem setSrcLen_draws (v : Word) : (setSrcLen v s).draws = s.draws := rfl
@[simp] theorem setSrcLen_readData (v : Word) : (setSrcLen v s).readData = s.readData := rfl

/-! ### `setPend` -/

@[simp] theorem setPend_config (ps : List Pixel) : (setPend ps s).config = s.config := rfl
@[simp] theorem setPend_status (ps : List Pixel) : (setPend ps s).status = s.status := rfl
@[simp] theorem setPend_srcLen (ps : List Pixel) : (setPend ps s).srcLen = s.srcLen := rfl
@[simp] theorem setPend_result (ps : List Pixel) : (setPend ps s).result = s.result := rfl
@[simp] theorem setPend_src (ps : List Pixel) : (setPend ps s).src = s.src := rfl
@[simp] theorem setPend_out (ps : List Pixel) : (setPend ps s).out = s.out := rfl
@[simp] theorem setPend_cur (ps : List Pixel) : (setPend ps s).cur = s.cur := rfl
@[simp] theorem setPend_pend (ps : List Pixel) : (setPend ps s).pend = ps := rfl
@[simp] theorem setPend_faults (ps : List Pixel) : (setPend ps s).faults = s.faults := rfl
@[simp] theorem setPend_prog (ps : List Pixel) : (setPend ps s).prog = s.prog := rfl
@[simp] theorem setPend_turns (ps : List Pixel) : (setPend ps s).turns = s.turns := rfl
@[simp] theorem setPend_draws (ps : List Pixel) : (setPend ps s).draws = s.draws := rfl
@[simp] theorem setPend_readData (ps : List Pixel) : (setPend ps s).readData = s.readData := rfl

/-! ### `setRead` -/

@[simp] theorem setRead_config (d : Option HostData) : (setRead d s).config = s.config := rfl
@[simp] theorem setRead_status (d : Option HostData) : (setRead d s).status = s.status := rfl
@[simp] theorem setRead_srcLen (d : Option HostData) : (setRead d s).srcLen = s.srcLen := rfl
@[simp] theorem setRead_result (d : Option HostData) : (setRead d s).result = s.result := rfl
@[simp] theorem setRead_src (d : Option HostData) : (setRead d s).src = s.src := rfl
@[simp] theorem setRead_out (d : Option HostData) : (setRead d s).out = s.out := rfl
@[simp] theorem setRead_cur (d : Option HostData) : (setRead d s).cur = s.cur := rfl
@[simp] theorem setRead_pend (d : Option HostData) : (setRead d s).pend = s.pend := rfl
@[simp] theorem setRead_faults (d : Option HostData) : (setRead d s).faults = s.faults := rfl
@[simp] theorem setRead_prog (d : Option HostData) : (setRead d s).prog = s.prog := rfl
@[simp] theorem setRead_turns (d : Option HostData) : (setRead d s).turns = s.turns := rfl
@[simp] theorem setRead_draws (d : Option HostData) : (setRead d s).draws = s.draws := rfl
@[simp] theorem setRead_readData (d : Option HostData) : (setRead d s).readData = d := rfl

/-! ### `acceptCommand` -/

@[simp] theorem acceptCommand_config (w : Word) : (acceptCommand w s).config = s.config := rfl
@[simp] theorem acceptCommand_status (w : Word) : (acceptCommand w s).status = s.status.accept := rfl
@[simp] theorem acceptCommand_srcLen (w : Word) : (acceptCommand w s).srcLen = s.srcLen := rfl
@[simp] theorem acceptCommand_result (w : Word) : (acceptCommand w s).result = s.result := rfl
@[simp] theorem acceptCommand_src (w : Word) : (acceptCommand w s).src = s.src := rfl
@[simp] theorem acceptCommand_out (w : Word) : (acceptCommand w s).out = s.out := rfl
@[simp] theorem acceptCommand_cur (w : Word) : (acceptCommand w s).cur = some w := rfl
@[simp] theorem acceptCommand_pend (w : Word) : (acceptCommand w s).pend = s.pend := rfl
@[simp] theorem acceptCommand_faults (w : Word) : (acceptCommand w s).faults = s.faults := rfl
@[simp] theorem acceptCommand_prog (w : Word) : (acceptCommand w s).prog = s.prog := rfl
@[simp] theorem acceptCommand_turns (w : Word) : (acceptCommand w s).turns = s.turns := rfl
@[simp] theorem acceptCommand_draws (w : Word) : (acceptCommand w s).draws = s.draws := rfl
@[simp] theorem acceptCommand_readData (w : Word) : (acceptCommand w s).readData = s.readData := rfl

/-! ### `overrunCommand` -/

@[simp] theorem overrunCommand_config : (overrunCommand s).config = s.config := rfl
@[simp] theorem overrunCommand_status : (overrunCommand s).status = s.status.overrun := rfl
@[simp] theorem overrunCommand_srcLen : (overrunCommand s).srcLen = s.srcLen := rfl
@[simp] theorem overrunCommand_result : (overrunCommand s).result = s.result := rfl
@[simp] theorem overrunCommand_src : (overrunCommand s).src = s.src := rfl
@[simp] theorem overrunCommand_out : (overrunCommand s).out = s.out := rfl
@[simp] theorem overrunCommand_cur : (overrunCommand s).cur = s.cur := rfl
@[simp] theorem overrunCommand_pend : (overrunCommand s).pend = s.pend := rfl
@[simp] theorem overrunCommand_faults : (overrunCommand s).faults = s.faults := rfl
@[simp] theorem overrunCommand_prog : (overrunCommand s).prog = s.prog := rfl
@[simp] theorem overrunCommand_turns : (overrunCommand s).turns = s.turns := rfl
@[simp] theorem overrunCommand_draws : (overrunCommand s).draws = s.draws := rfl
@[simp] theorem overrunCommand_readData : (overrunCommand s).readData = s.readData := rfl

/-! ### `completeCommand` -/

@[simp] theorem completeCommand_config : (completeCommand s).config = s.config := rfl
@[simp] theorem completeCommand_status : (completeCommand s).status = s.status.complete := rfl
@[simp] theorem completeCommand_srcLen : (completeCommand s).srcLen = s.srcLen := rfl
@[simp] theorem completeCommand_result : (completeCommand s).result = s.result := rfl
@[simp] theorem completeCommand_src : (completeCommand s).src = s.src := rfl
@[simp] theorem completeCommand_out : (completeCommand s).out = s.out := rfl
@[simp] theorem completeCommand_cur : (completeCommand s).cur = none := rfl
@[simp] theorem completeCommand_pend : (completeCommand s).pend = [] := rfl
@[simp] theorem completeCommand_faults : (completeCommand s).faults = s.faults := rfl
@[simp] theorem completeCommand_prog : (completeCommand s).prog = s.prog := rfl
@[simp] theorem completeCommand_turns : (completeCommand s).turns = s.turns := rfl
@[simp] theorem completeCommand_draws : (completeCommand s).draws = s.draws := rfl
@[simp] theorem completeCommand_readData : (completeCommand s).readData = s.readData := rfl

/-! ### `completeAck` -/

@[simp] theorem completeAck_config : (completeAck s).config = s.config := rfl
@[simp] theorem completeAck_status : (completeAck s).status = s.status.completeAck := rfl
@[simp] theorem completeAck_srcLen : (completeAck s).srcLen = s.srcLen := rfl
@[simp] theorem completeAck_result : (completeAck s).result = s.result := rfl
@[simp] theorem completeAck_src : (completeAck s).src = s.src := rfl
@[simp] theorem completeAck_out : (completeAck s).out = s.out := rfl
@[simp] theorem completeAck_cur : (completeAck s).cur = none := rfl
@[simp] theorem completeAck_pend : (completeAck s).pend = [] := rfl
@[simp] theorem completeAck_faults : (completeAck s).faults = s.faults := rfl
@[simp] theorem completeAck_prog : (completeAck s).prog = s.prog := rfl
@[simp] theorem completeAck_turns : (completeAck s).turns = s.turns := rfl
@[simp] theorem completeAck_draws : (completeAck s).draws = s.draws := rfl
@[simp] theorem completeAck_readData : (completeAck s).readData = s.readData := rfl

/-! ### `raiseError` -/

@[simp] theorem raiseError_config (e : ErrCode) : (raiseError e s).config = s.config := rfl
@[simp] theorem raiseError_status (e : ErrCode) : (raiseError e s).status = s.status.raise e := rfl
@[simp] theorem raiseError_srcLen (e : ErrCode) : (raiseError e s).srcLen = s.srcLen := rfl
@[simp] theorem raiseError_result (e : ErrCode) : (raiseError e s).result = s.result := rfl
@[simp] theorem raiseError_src (e : ErrCode) : (raiseError e s).src = s.src := rfl
@[simp] theorem raiseError_out (e : ErrCode) : (raiseError e s).out = s.out := rfl
@[simp] theorem raiseError_cur (e : ErrCode) : (raiseError e s).cur = none := rfl
@[simp] theorem raiseError_pend (e : ErrCode) : (raiseError e s).pend = [] := rfl
@[simp] theorem raiseError_faults (e : ErrCode) : (raiseError e s).faults = s.faults := rfl
@[simp] theorem raiseError_prog (e : ErrCode) : (raiseError e s).prog = s.prog := rfl
@[simp] theorem raiseError_turns (e : ErrCode) : (raiseError e s).turns = s.turns := rfl
@[simp] theorem raiseError_draws (e : ErrCode) : (raiseError e s).draws = s.draws := rfl
@[simp] theorem raiseError_readData (e : ErrCode) : (raiseError e s).readData = s.readData := rfl

/-! ### `resetBlock` -/

@[simp] theorem resetBlock_config : (resetBlock s).config = s.config := rfl
@[simp] theorem resetBlock_status : (resetBlock s).status = Status.reset := rfl
@[simp] theorem resetBlock_srcLen : (resetBlock s).srcLen = 0 := rfl
@[simp] theorem resetBlock_result : (resetBlock s).result = 0 := rfl
@[simp] theorem resetBlock_src : (resetBlock s).src = [] := rfl
@[simp] theorem resetBlock_out : (resetBlock s).out = [] := rfl
@[simp] theorem resetBlock_cur : (resetBlock s).cur = none := rfl
@[simp] theorem resetBlock_pend : (resetBlock s).pend = [] := rfl
@[simp] theorem resetBlock_faults : (resetBlock s).faults = s.faults := rfl
@[simp] theorem resetBlock_prog : (resetBlock s).prog = s.prog := rfl
@[simp] theorem resetBlock_turns : (resetBlock s).turns = s.turns := rfl
@[simp] theorem resetBlock_draws : (resetBlock s).draws = s.draws := rfl
@[simp] theorem resetBlock_readData : (resetBlock s).readData = s.readData := rfl

/-! ### `addFault` -/

@[simp] theorem addFault_config (f : Fault) : (addFault f s).config = s.config := by unfold addFault; split <;> rfl
@[simp] theorem addFault_status (f : Fault) : (addFault f s).status = s.status := by unfold addFault; split <;> rfl
@[simp] theorem addFault_srcLen (f : Fault) : (addFault f s).srcLen = s.srcLen := by unfold addFault; split <;> rfl
@[simp] theorem addFault_result (f : Fault) : (addFault f s).result = s.result := by unfold addFault; split <;> rfl
@[simp] theorem addFault_src (f : Fault) : (addFault f s).src = s.src := by unfold addFault; split <;> rfl
@[simp] theorem addFault_out (f : Fault) : (addFault f s).out = s.out := by unfold addFault; split <;> rfl
@[simp] theorem addFault_cur (f : Fault) : (addFault f s).cur = s.cur := by unfold addFault; split <;> rfl
@[simp] theorem addFault_pend (f : Fault) : (addFault f s).pend = s.pend := by unfold addFault; split <;> rfl
@[simp] theorem addFault_prog (f : Fault) : (addFault f s).prog = s.prog := by unfold addFault; split <;> rfl
@[simp] theorem addFault_turns (f : Fault) : (addFault f s).turns = s.turns := by unfold addFault; split <;> rfl
@[simp] theorem addFault_draws (f : Fault) : (addFault f s).draws = s.draws := by unfold addFault; split <;> rfl
@[simp] theorem addFault_readData (f : Fault) : (addFault f s).readData = s.readData := by unfold addFault; split <;> rfl

theorem addFault_faults (f : Fault) :
    (addFault f s).faults = if f ∈ s.faults then s.faults else s.faults ++ [f] := by unfold addFault; split <;> rfl

/-! ### STATUS -/

@[simp] theorem Status.accept_busy : st.accept.busy = true := rfl
@[simp] theorem Status.accept_done : st.accept.done = false := rfl
@[simp] theorem Status.accept_err : st.accept.err = false := rfl
@[simp] theorem Status.accept_ovr : st.accept.ovr = st.ovr := rfl
@[simp] theorem Status.accept_errCode : st.accept.errCode = 0 := rfl
@[simp] theorem Status.overrun_busy : st.overrun.busy = st.busy := rfl
@[simp] theorem Status.overrun_done : st.overrun.done = st.done := rfl
@[simp] theorem Status.overrun_err : st.overrun.err = st.err := rfl
@[simp] theorem Status.overrun_ovr : st.overrun.ovr = true := rfl
@[simp] theorem Status.overrun_errCode : st.overrun.errCode = st.errCode := rfl
@[simp] theorem Status.complete_busy : st.complete.busy = false := rfl
@[simp] theorem Status.complete_done : st.complete.done = true := rfl
@[simp] theorem Status.complete_err : st.complete.err = st.err := rfl
@[simp] theorem Status.complete_ovr : st.complete.ovr = st.ovr := rfl
@[simp] theorem Status.complete_errCode : st.complete.errCode = st.errCode := rfl
@[simp] theorem Status.completeAck_busy : st.completeAck.busy = false := rfl
@[simp] theorem Status.completeAck_done : st.completeAck.done = st.done := rfl
@[simp] theorem Status.completeAck_err : st.completeAck.err = st.err := rfl
@[simp] theorem Status.completeAck_ovr : st.completeAck.ovr = false := rfl
@[simp] theorem Status.completeAck_errCode : st.completeAck.errCode = st.errCode := rfl
@[simp] theorem Status.raise_busy (e : ErrCode) : (st.raise e).busy = false := rfl
@[simp] theorem Status.raise_done (e : ErrCode) : (st.raise e).done = st.done := rfl
@[simp] theorem Status.raise_err (e : ErrCode) : (st.raise e).err = true := rfl
@[simp] theorem Status.raise_ovr (e : ErrCode) : (st.raise e).ovr = st.ovr := rfl
@[simp] theorem Status.raise_errCode (e : ErrCode) : (st.raise e).errCode = e.code := rfl

end Sys2Proof.Machine
end

