-- ==== Sys2Proof/Laws/Memory.lean ====
section
/-! SUPPORT. The laws of the sparse memories: read after write, the canonical form, and that equal reads are equal memories. -/

namespace Sys2Proof.Machine

variable {α : Type}

@[simp] theorem Cells.read_nil (a : Nat) : Cells.read ([] : Cells α) a = none := rfl

/-- A cell that was just written reads as the value written. -/
@[simp] theorem Cells.read_write_same (m : Cells α) (a : Nat) (v : α) : Cells.read (Cells.write m a v) a = some v := by
  induction m with
  | nil => simp [Cells.write, Cells.read]
  | cons c m ih =>
    obtain ⟨b, u⟩ := c
    by_cases h1 : a < b
    · simp [Cells.write, Cells.read, h1]
    · by_cases h2 : a = b <;> simp [Cells.write, Cells.read, h1, h2, ih]

/-- A write leaves every other cell alone. -/
theorem Cells.read_write_other (m : Cells α) {a c : Nat} (v : α) (h : c ≠ a) :
    Cells.read (Cells.write m a v) c = Cells.read m c := by
  induction m with
  | nil => simp [Cells.write, Cells.read, h]
  | cons d m ih =>
    obtain ⟨b, u⟩ := d
    by_cases h1 : a < b
    · simp [Cells.write, Cells.read, h1, h]
    · by_cases h2 : a = b
      · subst h2; simp [Cells.write, Cells.read, h]
      · simp [Cells.write, Cells.read, h1, h2, ih]

/-- Both cases of a read after a write. -/
theorem Cells.read_write (m : Cells α) (a c : Nat) (v : α) :
    Cells.read (Cells.write m a v) c = if c = a then some v else Cells.read m c := by
  split
  · next h => subst h; simp
  · next h => exact Cells.read_write_other m v h

/-- A write inside the bounds keeps the canonical form. -/
theorem Cells.wfFrom_write {lo hi a : Nat} {m : Cells α} (v : α) (hm : Cells.wfFrom lo hi m = true) (hlo : lo ≤ a)
    (hhi : a < hi) : Cells.wfFrom lo hi (Cells.write m a v) = true := by
  induction m generalizing lo with
  | nil => simp [Cells.write, Cells.wfFrom, hlo, hhi]
  | cons c m ih =>
    obtain ⟨b, u⟩ := c
    simp only [Cells.wfFrom, Bool.and_eq_true, decide_eq_true_eq] at hm
    obtain ⟨⟨hb, hbh⟩, hrest⟩ := hm
    by_cases h1 : a < b
    · simp [Cells.write, Cells.wfFrom, h1, hlo, hhi, hbh, hrest]
    · by_cases h2 : a = b
      · subst h2; simp [Cells.write, Cells.wfFrom, hlo, hhi, hrest]
      · have := ih hrest (by omega)
        simp [Cells.write, Cells.wfFrom, h1, h2, hb, hbh, this]

/-- Below the first address of a canonical memory every cell holds ⊥. -/
theorem Cells.read_below {lo hi a : Nat} {m : Cells α} (hm : Cells.wfFrom lo hi m = true) (h : a < lo) :
    Cells.read m a = none := by
  induction m generalizing lo with
  | nil => rfl
  | cons c m ih =>
    obtain ⟨b, u⟩ := c
    simp only [Cells.wfFrom, Bool.and_eq_true, decide_eq_true_eq] at hm
    have hne : a ≠ b := by omega
    simpa [Cells.read, hne] using ih hm.2 (by omega)

/-- Two canonical memories that read alike are the same list. -/
theorem Cells.ext {lo hi : Nat} {m n : Cells α} (hm : Cells.wfFrom lo hi m = true) (hn : Cells.wfFrom lo hi n = true)
    (h : ∀ a, Cells.read m a = Cells.read n a) : m = n := by
  induction m generalizing lo n with
  | nil =>
    cases n with
    | nil => rfl
    | cons d n => have := h d.1; simp [Cells.read] at this
  | cons c m ih =>
    obtain ⟨b, u⟩ := c
    cases n with
    | nil => have := h b; simp [Cells.read] at this
    | cons d n =>
      obtain ⟨b', u'⟩ := d
      simp only [Cells.wfFrom, Bool.and_eq_true, decide_eq_true_eq] at hm hn
      have hb : b = b' := by
        rcases Nat.lt_trichotomy b b' with hlt | heq | hgt
        · have h1 := h b
          have h2 : b ≠ b' := by omega
          simp [Cells.read, h2, Cells.read_below hn.2 (show b < b' + 1 by omega)] at h1
        · exact heq
        · have h1 := h b'
          have h2 : b' ≠ b := by omega
          simp [Cells.read, h2, Cells.read_below hm.2 (show b' < b + 1 by omega)] at h1
      subst hb
      have hu : u = u' := by simpa [Cells.read] using h b
      subst hu
      have := ih hm.2 hn.2 fun a => by
        by_cases ha : a = b
        · subst ha
          rw [Cells.read_below hm.2 (by omega), Cells.read_below hn.2 (by omega)]
        · simpa [Cells.read, ha] using h a
      rw [this]

/-- Every SRC write the host may make keeps SRC canonical. -/
theorem srcWrite_keeps_wf {s : State} {a : Nat} (v : Byte) (h : Memory.wf s.src = true) (ha : a < Config.srcSize) :
    Memory.wf (srcWrite a v s).src = true :=
  Cells.wfFrom_write v h (Nat.zero_le _) ha

/-- Every OUT write inside the raster keeps OUT canonical. -/
theorem outWrite_keeps_wf {s : State} {k : Nat} (px : Rgb) (h : Raster.wf s.out = true) (hk : k < Config.npix) :
    Raster.wf (outWrite k px s).out = true :=
  Cells.wfFrom_write px h (Nat.zero_le _) hk

theorem resetBlock_src_wf (s : State) : Memory.wf (resetBlock s).src = true := rfl

theorem resetBlock_out_wf (s : State) : Raster.wf (resetBlock s).out = true := rfl

theorem reset_src_wf : Memory.wf State.reset.src = true := rfl

theorem reset_out_wf : Raster.wf State.reset.out = true := rfl

/-- A memory written out as one value per address, from `lo` on, reads as that function. -/
theorem Cells.read_map_range' (f : Nat → α) (lo n a : Nat) (h1 : lo ≤ a) (h2 : a < lo + n) :
    Cells.read ((List.range' lo n).map fun i => (i, f i)) a = some (f a) := by
  induction n generalizing lo with
  | zero => omega
  | succ n ih =>
    by_cases h : a = lo
    · subst h; simp [List.range'_succ, Cells.read]
    · simp [List.range'_succ, Cells.read, h]
      exact ih (lo + 1) (by omega) (by omega)

/-- The same, from address 0 on. -/
theorem Cells.read_map_range (f : Nat → α) (n a : Nat) (h : a < n) :
    Cells.read ((List.range n).map fun i => (i, f i)) a = some (f a) := by
  rw [List.range_eq_range']
  exact Cells.read_map_range' f 0 n a (Nat.zero_le _) (by omega)

end Sys2Proof.Machine
end

