-- ==== Sys2Proof/Laws/Ops.lean ====
section
/-! SUPPORT. One lemma per shared operation: what it answers, and when. -/

namespace Sys2Proof.Machine

/-! ## FAULT -/

theorem mem_addFault_faults (f : Fault) (s : State) : f ∈ (addFault f s).faults := by
  rw [addFault_faults]; split <;> simp_all

/-- No record is lost when one is added (R35). -/
theorem faults_subset_addFault {f g : Fault} {s : State} (h : g ∈ s.faults) : g ∈ (addFault f s).faults := by
  rw [addFault_faults]; split <;> simp [h]

/-- Only the record named is added. -/
theorem mem_addFault_iff {f g : Fault} {s : State} : g ∈ (addFault f s).faults ↔ g ∈ s.faults ∨ g = f := by
  rw [addFault_faults]; split <;> simp_all

theorem addFault_nodup {f : Fault} {s : State} (h : s.faults.Nodup) : (addFault f s).faults.Nodup := by
  rw [addFault_faults]
  split
  · exact h
  · next hf =>
    refine List.nodup_append.2 ⟨h, by simp, fun a ha b hb hab => hf ?_⟩
    rw [← List.mem_singleton.1 hb, ← hab]; exact ha

theorem engineStuck_eq_true {s : State} : engineStuck s = true ↔ ∃ a, .unwrittenSrc a ∈ s.faults := by
  simp only [engineStuck, List.any_eq_true]
  constructor
  · rintro ⟨f, hf, hu⟩
    cases f <;> simp_all [Fault.isUnwrittenSrc]
    exact ⟨_, hf⟩
  · rintro ⟨a, h⟩
    exact ⟨_, h, rfl⟩

theorem engineStuck_eq_false {s : State} : engineStuck s = false ↔ ∀ a, .unwrittenSrc a ∉ s.faults := by
  rw [← Bool.not_eq_true, engineStuck_eq_true]; simp

/-- The run is refused exactly when FAULT holds a `HOST_HAZARD` record. -/
theorem refusedBy_eq_none {s : State} : refusedBy s = none ↔ ∀ g, .hostHazard g ∉ s.faults := by
  simp only [refusedBy, List.find?_eq_none]
  constructor
  · exact fun h g hg => h _ hg rfl
  · intro h f hf
    cases f <;> simp_all [Fault.isHostHazard]

/-- What refuses a run is a `HOST_HAZARD` record of it. -/
theorem refusedBy_eq_some {s : State} {f : Fault} (h : refusedBy s = some f) : ∃ g, f = .hostHazard g ∧ f ∈ s.faults := by
  have hf := List.mem_of_find?_eq_some h
  have hh := List.find?_some h
  cases f <;> simp_all [Fault.isHostHazard]

/-- Adding any other record refuses nothing. -/
theorem refusedBy_addFault {f : Fault} (s : State) (h : f.isHostHazard = false) : refusedBy (addFault f s) = refusedBy s := by
  unfold addFault
  split
  · rfl
  · simp [refusedBy, List.find?_append, h]

/-! ## Reading SRC -/

theorem srcRead_eq_ok {s : State} {a : Nat} {v : Byte} : srcRead s a = .ok v ↔ Cells.read s.src a = some v := by
  unfold srcRead; split <;> simp_all

theorem srcRead_eq_error {s : State} {a : Nat} {f : Fault} :
    srcRead s a = .error f ↔ Cells.read s.src a = none ∧ f = .unwrittenSrc a := by
  unfold srcRead
  cases Cells.read s.src a <;> simp [eq_comm]

theorem srcRead_of_some {s : State} {a : Nat} {v : Byte} (h : Cells.read s.src a = some v) : srcRead s a = .ok v :=
  srcRead_eq_ok.2 h

theorem srcRead_of_none {s : State} {a : Nat} (h : Cells.read s.src a = none) : srcRead s a = .error (.unwrittenSrc a) :=
  srcRead_eq_error.2 ⟨h, rfl⟩

/-- The stages read nothing but SRC (and the layout). -/
theorem srcRead_congr {s t : State} (h : s.src = t.src) (a : Nat) : srcRead s a = srcRead t a := by
  simp [srcRead, h]

theorem palWord_congr {s t : State} (h : s.src = t.src) (p c : Nibble) : palWord s p c = palWord t p c := by
  simp only [palWord, srcRead_congr h]

theorem pixelColour_congr {s t : State} (h : s.src = t.src) (hc : s.config = t.config) (y x : Nat) :
    pixelColour s y x = pixelColour t y x := by
  simp only [pixelColour, pidx, cidx, srcRead_congr h, palWord_congr h, hc]

/-- The colour of a pixel whose four bytes are written (R190). -/
theorem pixelColour_of_bytes {s : State} {y x : Nat} {scb sb b0 b1 : Byte}
    (h1 : Cells.read s.src (scbAddr y) = some scb) (h2 : Cells.read s.src (byteIndex y x) = some sb)
    (h3 : Cells.read s.src (paletteLoAddr (selectorIndex scb) (nibbleOf sb x)) = some b0)
    (h4 : Cells.read s.src (paletteHiAddr (selectorIndex scb) (nibbleOf sb x)) = some b1) :
    pixelColour s y x = .ok (assemble s.config.layout (entryOfBytes b0 b1)) := by
  simp [pixelColour, pidx, cidx, palWord, srcRead_of_some h1, srcRead_of_some h2, srcRead_of_some h3, srcRead_of_some h4]

/-- A pixel that cannot be read names an unwritten SRC cell (R52). -/
theorem palWord_error {s : State} {p c : Nibble} {f : Fault} (h : palWord s p c = .error f) :
    ∃ a, f = .unwrittenSrc a ∧ Cells.read s.src a = none := by
  unfold palWord at h
  split at h
  · next hf => cases h; obtain ⟨h1, rfl⟩ := srcRead_eq_error.1 hf; exact ⟨_, rfl, h1⟩
  · split at h
    · next hf => cases h; obtain ⟨h1, rfl⟩ := srcRead_eq_error.1 hf; exact ⟨_, rfl, h1⟩
    · cases h

theorem pixelColour_error {s : State} {y x : Nat} {f : Fault} (h : pixelColour s y x = .error f) :
    ∃ a, f = .unwrittenSrc a ∧ Cells.read s.src a = none := by
  unfold pixelColour pidx cidx at h
  split at h
  · next hf =>
    split at hf
    · cases hf
    · next hs => cases hf; cases h; obtain ⟨h1, rfl⟩ := srcRead_eq_error.1 hs; exact ⟨_, rfl, h1⟩
  · split at h
    · next hf =>
      split at hf
      · cases hf
      · next hs => cases hf; cases h; obtain ⟨h1, rfl⟩ := srcRead_eq_error.1 hs; exact ⟨_, rfl, h1⟩
    · split at h
      · next hf => cases h; exact palWord_error hf
      · cases h

/-! ## The checks of the first engine step -/

theorem sizeOK_iff {s : State} : sizeOK s = true ↔ s.srcLen = 32768 := by simp [sizeOK]

@[simp] theorem checkArgs_true (s : State) (body : Host.Outcome State Fault Refusal) : checkArgs true s body = body := rfl

@[simp] theorem checkArgs_false (s : State) (body : Host.Outcome State Fault Refusal) :
    checkArgs false s body = .next (raiseError .argRange s) := rfl

theorem checkSize_ok {s : State} (h : s.srcLen = 32768) (body : Host.Outcome State Fault Refusal) :
    checkSize s body = body := by simp [checkSize, sizeOK_iff.2 h]

theorem checkSize_bad {s : State} (h : s.srcLen ≠ 32768) (body : Host.Outcome State Fault Refusal) :
    checkSize s body = .next (raiseError .fmtSize s) := by
  rw [checkSize, if_neg (fun h' => h (sizeOK_iff.1 h'))]

@[simp] theorem withRead_ok {α : Type} (v : α) (s : State) (k : α → State) : withRead (.ok v) s k = .next (k v) := rfl

@[simp] theorem withRead_error {α : Type} (f : Fault) (s : State) (k : α → State) :
    withRead (.error f) s k = .next (addFault f s) := rfl

theorem legalY_iff {y : BitVec 8} : legalY y = true ↔ y.toNat < 200 := by
  simp only [legalY, Config.height, decide_eq_true_eq]

theorem legalX_iff {x : BitVec 9} : legalX x = true ↔ x.toNat < 320 := by
  simp only [legalX, Config.width, decide_eq_true_eq]

/-! ## The pixel sets -/

theorem mem_rowPixels {y : Nat} {p : Pixel} : p ∈ rowPixels y ↔ p.y = y ∧ p.x < 320 := by
  obtain ⟨py, px⟩ := p
  simp [rowPixels, eq_comm, and_comm]

theorem mem_framePixels {p : Pixel} : p ∈ framePixels ↔ p.y < 200 ∧ p.x < 320 := by
  simp [framePixels, mem_rowPixels]

@[simp] theorem length_rowPixels (y : Nat) : (rowPixels y).length = 320 := by simp [rowPixels]

@[simp] theorem length_framePixels : framePixels.length = 64000 := by
  have h : (fun y => (rowPixels y).length) = fun _ => 320 := funext length_rowPixels
  rw [framePixels, List.length_flatMap, h, List.map_const', List.sum_replicate, List.length_range]
  rfl

theorem rowPixels_nodup (y : Nat) : (rowPixels y).Nodup :=
  List.nodup_range.map fun a b h => by simpa using h

theorem framePixels_nodup : framePixels.Nodup := by
  refine List.nodup_flatMap.2 ⟨fun y _ => rowPixels_nodup y, ?_⟩
  refine List.nodup_range.imp ?_
  intro a b hab p ha hb
  exact hab ((mem_rowPixels.1 ha).1.symm.trans (mem_rowPixels.1 hb).1)

theorem commandPixels_nodup (i : Instr) : (commandPixels i).Nodup := by
  cases i <;> simp [commandPixels, framePixels_nodup]
  split <;> simp [rowPixels_nodup]

/-- Every position a command has to write is inside the raster (R51). -/
theorem mem_commandPixels {i : Instr} {p : Pixel} (h : p ∈ commandPixels i) : p.y < 200 ∧ p.x < 320 := by
  cases i <;> simp only [commandPixels, List.not_mem_nil] at h
  · split at h
    · next hy => have := mem_rowPixels.1 h; have := legalY_iff.1 hy; omega
    · simp at h
  · exact mem_framePixels.1 h

theorem pixelNumber_lt {p : Pixel} (hy : p.y < 200) (hx : p.x < 320) : pixelNumber p < 64000 := by
  simp only [pixelNumber, Config.width]; omega

/-- Distinct positions of the raster have distinct OUT cells (R197). -/
theorem pixelNumber_inj {p q : Pixel} (hp : p.x < 320) (hq : q.x < 320) (h : pixelNumber p = pixelNumber q) : p = q := by
  obtain ⟨py, px⟩ := p
  obtain ⟨qy, qx⟩ := q
  simp only [pixelNumber, Config.width, Pixel.mk.injEq] at *
  omega

end Sys2Proof.Machine
end

