-- ==== Sys2Proof/Laws/Datapath.lean ====
section
/-! SUPPORT. The datapath's parts in plain arithmetic, and what one SRC write leaves alone in them. -/

namespace Sys2Proof.Machine

/-! ## The parts as numbers -/

/-- Two fields that do not overlap: `|` is `+`. -/
theorem nat_or_mul_two_pow (a b n : Nat) (h : a < 2 ^ n) : a ||| b * 2 ^ n = a + b * 2 ^ n := by
  rw [Nat.or_comm, ← Nat.shiftLeft_eq, ← Nat.shiftLeft_add_eq_or_of_lt h, Nat.add_comm]

/-- R165: widening is exact multiplication by 17. -/
theorem widen_toNat (v : Nibble) : (widen v).toNat = v.toNat * 17 := by
  revert v; decide

/-- R163: a channel is the entry's 4-bit field at its position. -/
theorem channel_toNat (e : Entry) (p : Config.NibblePos) : (channel e p).toNat = e.toNat / 2 ^ p.bit % 16 := by
  simp [channel, BitVec.extractLsb'_toNat, Nat.shiftRight_eq_div_pow]

/-- R122: the palette index is the selector byte's low nibble. -/
theorem selectorIndex_toNat (b : Byte) : (selectorIndex b).toNat = b.toNat % 16 := by
  simp [selectorIndex, BitVec.extractLsb'_toNat]

/-- R142: the high nibble for an even column, the low one for an odd. -/
theorem nibbleOf_toNat (b : Byte) (x : Nat) :
    (nibbleOf b x).toNat = if x % 2 = 0 then b.toNat / 16 else b.toNat % 16 := by
  unfold nibbleOf; split
  · have := b.isLt; simp [BitVec.extractLsb'_toNat, Nat.shiftRight_eq_div_pow]; omega
  · simp [BitVec.extractLsb'_toNat]

/-- R54: the palette word is little-endian. -/
theorem entryOfBytes_toNat (b0 b1 : Byte) : (entryOfBytes b0 b1).toNat = b0.toNat + 256 * b1.toNat := by
  have h0 := b0.isLt
  have h1 := b1.isLt
  have e0 : (b0.setWidth 16).toNat = b0.toNat := by simp; omega
  have e1 : (b1.setWidth 16 <<< 8).toNat = b1.toNat * 2 ^ 8 := by simp [Nat.shiftLeft_eq]; omega
  simp only [entryOfBytes, BitVec.toNat_or, e0, e1]
  rw [nat_or_mul_two_pow _ _ 8 (by omega)]; omega

/-- R86: the RESULT word of a colour. -/
theorem resultOfRgb_toNat (c : Rgb) :
    (resultOfRgb c).toNat = c.r.toNat + c.g.toNat * 2 ^ 8 + c.b.toNat * 2 ^ 16 + 255 * 2 ^ 24 := by
  have h1 := c.r.isLt
  have h2 := c.g.isLt
  have h3 := c.b.isLt
  have e0 : (c.r.setWidth 32).toNat = c.r.toNat := by simp; omega
  have e1 : (c.g.setWidth 32 <<< 8).toNat = c.g.toNat * 2 ^ 8 := by simp [Nat.shiftLeft_eq]; omega
  have e2 : (c.b.setWidth 32 <<< 16).toNat = c.b.toNat * 2 ^ 16 := by simp [Nat.shiftLeft_eq]; omega
  have e3 : (0xFF000000 : Word).toNat = 255 * 2 ^ 24 := by decide
  simp only [resultOfRgb, BitVec.toNat_or, e0, e1, e2, e3]
  rw [nat_or_mul_two_pow _ _ 8 (by omega), nat_or_mul_two_pow _ _ 16 (by omega), nat_or_mul_two_pow _ _ 24 (by omega)]

/-! ## The parts as RESULT fields -/

theorem selectorIndex_setWidth (scb : Byte) : (selectorIndex scb).setWidth 32 = (scb &&& 0x0F).setWidth 32 := by
  unfold selectorIndex; ext i hi; simp; interval_cases i <;> simp

theorem nibbleOf_setWidth (sb : Byte) (x : Nat) :
    (nibbleOf sb x).setWidth 32 = (if x % 2 = 0 then sb >>> 4 else sb &&& 0x0F).setWidth 32 := by
  unfold nibbleOf; split <;> ext i hi <;> simp <;> interval_cases i <;> simp

theorem entryOfBytes_setWidth (b0 b1 : Byte) :
    (entryOfBytes b0 b1).setWidth 32 = b0.setWidth 32 ||| b1.setWidth 32 <<< 8 := by
  unfold entryOfBytes; ext i hi; simp; interval_cases i <;> simp

/-! ## Legal operands -/

theorem legalY_of_lt {y : BitVec 8} (h : y.toNat < 200) : legalY y = true := legalY_iff.2 h

theorem legalY_of_ge {y : BitVec 8} (h : 200 ≤ y.toNat) : legalY y = false := by
  rw [← Bool.not_eq_true, legalY_iff]; omega

theorem legalX_of_lt {x : BitVec 9} (h : x.toNat < 320) : legalX x = true := legalX_iff.2 h

theorem legalX_of_ge {x : BitVec 9} (h : 320 ≤ x.toNat) : legalX x = false := by
  rw [← Bool.not_eq_true, legalX_iff]; omega

/-! ## One SRC write -/

theorem srcRead_srcWrite (a : Nat) (v : Byte) (s : State) (b : Nat) :
    srcRead (srcWrite a v s) b = if b = a then .ok v else srcRead s b := by
  unfold srcRead; rw [srcWrite_src, Cells.read_write]; by_cases h : b = a <;> simp [h]

/-- A write into the selector region reaches only its own scanline's palette index. -/
theorem pidx_srcWrite (row : Nat) (scb : Byte) (s : State) (y : Nat) :
    pidx (srcWrite (32000 + row) scb s) y = if y = row then .ok (selectorIndex scb) else pidx s y := by
  simp only [pidx, scbAddr, Config.scbBase]
  rw [srcRead_srcWrite]
  by_cases h : y = row
  · subst h; simp
  · rw [if_neg (by omega), if_neg h]

/-- The bitmap and palette addresses of a pixel lie outside the selector region (R51). -/
theorem addresses_outside_selectors {y x row : Nat} (p c : Nibble) (hy : y < 200) (hx : x < 320) (hr : row < 256) :
    byteIndex y x ≠ 32000 + row ∧ paletteLoAddr p c ≠ 32000 + row ∧ paletteHiAddr p c ≠ 32000 + row := by
  simp only [byteIndex, paletteLoAddr, paletteHiAddr, paletteIndex, Config.rowBytes, Config.palBase]; omega

theorem cidx_srcWrite_selector {y x row : Nat} (scb : Byte) (s : State) (hy : y < 200) (hx : x < 320) (hr : row < 256) :
    cidx (srcWrite (32000 + row) scb s) y x = cidx s y x := by
  unfold cidx
  rw [srcRead_srcWrite, if_neg (addresses_outside_selectors 0 0 hy hx hr).1]

theorem palWord_srcWrite_selector {row : Nat} (scb : Byte) (s : State) (p c : Nibble) (hr : row < 256) :
    palWord (srcWrite (32000 + row) scb s) p c = palWord s p c := by
  have h := addresses_outside_selectors (y := 0) (x := 0) p c (by omega) (by omega) hr
  unfold palWord
  rw [srcRead_srcWrite, srcRead_srcWrite, if_neg h.2.1, if_neg h.2.2]

end Sys2Proof.Machine
end

