-- ==== Sys2Proof/Laws/Decode.lean ====
section
/-! SUPPORT. The fields of the encoding functions (R82): each operand comes back from its own bits, and a word whose reserved
bits are 0 is its fields put together again. -/

namespace Sys2Proof

theorem opField_encN (op : BitVec 4) : opField (encN op) = op := by
  simp only [opField, encN]; ext i hi; simp; interval_cases i <;> simp

theorem mask_encN (op : BitVec 4) : encN op &&& 0xFFFFFFFF = op.setWidth 32 := by
  simp only [encN]; ext i hi; simp; interval_cases i <;> simp

theorem opField_encY (op : BitVec 4) (y : BitVec 8) : opField (encY op y) = op := by
  simp only [opField, encY]; ext i hi; simp; interval_cases i <;> simp

theorem yField_encY (op : BitVec 4) (y : BitVec 8) : yField (encY op y) = y := by
  simp only [yField, encY]; ext i hi; simp; interval_cases i <;> simp

theorem mask_encY (op : BitVec 4) (y : BitVec 8) : encY op y &&& 0xFFFFF00F = op.setWidth 32 := by
  simp only [encY]; ext i hi; simp; interval_cases i <;> simp

theorem opField_encYX (op : BitVec 4) (y : BitVec 8) (x : BitVec 9) : opField (encYX op y x) = op := by
  simp only [opField, encYX]; ext i hi; simp; interval_cases i <;> simp

theorem yField_encYX (op : BitVec 4) (y : BitVec 8) (x : BitVec 9) : yField (encYX op y x) = y := by
  simp only [yField, encYX]; ext i hi; simp; interval_cases i <;> simp

theorem xField_encYX (op : BitVec 4) (y : BitVec 8) (x : BitVec 9) : xField (encYX op y x) = x := by
  simp only [xField, encYX]; ext i hi; simp; interval_cases i <;> simp

theorem mask_encYX (op : BitVec 4) (y : BitVec 8) (x : BitVec 9) : encYX op y x &&& 0xFFE0000F = op.setWidth 32 := by
  simp only [encYX]; ext i hi; simp; interval_cases i <;> simp

theorem opField_encPC (op : BitVec 4) (p c : Nibble) : opField (encPC op p c) = op := by
  simp only [opField, encPC]; ext i hi; simp; interval_cases i <;> simp

theorem pField_encPC (op : BitVec 4) (p c : Nibble) : pField (encPC op p c) = p := by
  simp only [pField, encPC]; ext i hi; simp; interval_cases i <;> simp

theorem cField_encPC (op : BitVec 4) (p c : Nibble) : cField (encPC op p c) = c := by
  simp only [cField, encPC]; ext i hi; simp; interval_cases i <;> simp

theorem mask_encPC (op : BitVec 4) (p c : Nibble) : encPC op p c &&& 0xFFFFF00F = op.setWidth 32 := by
  simp only [encPC]; ext i hi; simp; interval_cases i <;> simp

theorem opField_encE (op : BitVec 4) (e : Entry) : opField (encE op e) = op := by
  simp only [opField, encE]; ext i hi; simp; interval_cases i <;> simp

theorem entryField_encE (op : BitVec 4) (e : Entry) : entryField (encE op e) = e := by
  simp only [entryField, encE]; ext i hi; simp; interval_cases i <;> simp

theorem mask_encE (op : BitVec 4) (e : Entry) : encE op e &&& 0x0000FFFF = op.setWidth 32 := by
  simp only [encE]; ext i hi; simp; interval_cases i <;> simp

theorem encN_fields {w : Word} (h : w &&& 0xFFFFFFFF = (opField w).setWidth 32) : encN (opField w) = w := by
  simp only [encN, opField] at *
  ext i hi
  have := congrArg (·.getLsbD i) h
  simp at this ⊢
  interval_cases i <;> simp_all

theorem encY_fields {w : Word} (h : w &&& 0xFFFFF00F = (opField w).setWidth 32) : encY (opField w) (yField w) = w := by
  simp only [encY, opField, yField] at *
  ext i hi
  have := congrArg (·.getLsbD i) h
  simp at this ⊢
  interval_cases i <;> simp_all

theorem encYX_fields {w : Word} (h : w &&& 0xFFE0000F = (opField w).setWidth 32) : encYX (opField w) (yField w) (xField w) = w := by
  simp only [encYX, opField, yField, xField] at *
  ext i hi
  have := congrArg (·.getLsbD i) h
  simp at this ⊢
  interval_cases i <;> simp_all

theorem encPC_fields {w : Word} (h : w &&& 0xFFFFF00F = (opField w).setWidth 32) : encPC (opField w) (pField w) (cField w) = w := by
  simp only [encPC, opField, pField, cField] at *
  ext i hi
  have := congrArg (·.getLsbD i) h
  simp at this ⊢
  interval_cases i <;> simp_all

theorem encE_fields {w : Word} (h : w &&& 0x0000FFFF = (opField w).setWidth 32) : encE (opField w) (entryField w) = w := by
  simp only [encE, opField, entryField] at *
  ext i hi
  have := congrArg (·.getLsbD i) h
  simp at this ⊢
  interval_cases i <;> simp_all

/-! ## The opcode map -/

/-- The row of an opcode is the one the decoder finds. -/
theorem find_row {w : Word} {r : OpcodeRow} (hr : r ∈ opcodeRows) (ho : opField w = r.op) :
    opcodeRows.find? (fun r => r.op == opField w) = some r := by
  rw [ho]
  simp only [opcodeRows, List.mem_cons, List.not_mem_nil, or_false] at hr
  rcases hr with rfl | rfl | rfl | rfl | rfl | rfl | rfl | rfl | rfl | rfl <;> rfl

/-- Every mask includes the opcode bits, so a word that matches a row has its opcode (R78). -/
theorem op_of_row {w : Word} {r : OpcodeRow} (hr : r ∈ opcodeRows) (hm : w &&& r.mask = r.pattern) : opField w = r.op := by
  have h15 : r.mask.extractLsb' 0 4 = 15 ∧ r.pattern.extractLsb' 0 4 = r.op := by
    simp only [opcodeRows, List.mem_cons, List.not_mem_nil, or_false] at hr
    rcases hr with rfl | rfl | rfl | rfl | rfl | rfl | rfl | rfl | rfl | rfl <;> exact ⟨rfl, rfl⟩
  have hbit : ∀ i, i < 4 → r.mask.getLsbD i = true := by
    intro i hi
    have := congrArg (·.getLsbD i) h15.1
    interval_cases i <;> simpa using this
  rw [← h15.2, ← hm, opField]
  ext i hi
  simp [hbit i hi]

/-- A word that matches a row decodes to its command (R78). -/
theorem decode_row {w : Word} {r : OpcodeRow} (hr : r ∈ opcodeRows) (hm : w &&& r.mask = r.pattern) :
    decode w = .ok (r.build w) := by
  rw [decode, find_row hr (op_of_row hr hm)]
  exact if_pos hm

/-- A word with a row's opcode that does not match the row is illegal (R80). -/
theorem decode_reserved_bits {w : Word} {r : OpcodeRow} (hr : r ∈ opcodeRows) (ho : opField w = r.op)
    (hm : w &&& r.mask ≠ r.pattern) : decode w = .error .reservedBits := by
  rw [decode, find_row hr ho]
  exact if_neg hm

/-- A word that decodes matches the row of what it decodes to. -/
theorem row_of_decode {w : Word} {i : Instr} (h : decode w = .ok i) :
    ∃ r ∈ opcodeRows, opField w = r.op ∧ w &&& r.mask = r.pattern ∧ i = r.build w := by
  unfold decode at h
  split at h
  · cases h
  · next r hr =>
    split at h
    · next hm =>
      have hmem := List.mem_of_find?_eq_some hr
      exact ⟨r, hmem, op_of_row hmem hm, hm, by cases h; rfl⟩
    · cases h

end Sys2Proof
end

