-- ==== Sys2Proof/Laws/PerInstr.lean ====
section
/-! SUPPORT. What holds of every command as syntax: its word matches its own row of the opcode table (R78). -/

namespace Sys2Proof.Laws.TableRow

/-- The table's row of a command: match and mask (R78). -/
def row : Instr → Word × Word
  | .nop => (0x00000000, 0xFFFFFFFF)
  | .valid => (0x00000001, 0xFFFFFFFF)
  | .rscb _ => (0x00000002, 0xFFFFF00F)
  | .unpk _ _ => (0x00000003, 0xFFE0000F)
  | .pfet _ _ => (0x00000004, 0xFFFFF00F)
  | .asmb _ => (0x00000005, 0x0000FFFF)
  | .dpix _ _ => (0x00000006, 0xFFE0000F)
  | .dlin _ => (0x00000007, 0xFFFFF00F)
  | .dfrm => (0x00000008, 0xFFFFFFFF)
  | .ack => (0x00000009, 0xFFFFFFFF)

/-- A command's word, masked by its row's mask, is its row's match. -/
def Statement (i : Instr) : Prop := encode i &&& (row i).2 = (row i).1

theorem nop : Statement .nop := rfl

theorem valid : Statement .valid := rfl

theorem rscb (y : BitVec 8) : Statement (.rscb y) := mask_encY 2 y

theorem unpk (y : BitVec 8) (x : BitVec 9) : Statement (.unpk y x) := mask_encYX 3 y x

theorem pfet (p c : Nibble) : Statement (.pfet p c) := mask_encPC 4 p c

theorem asmb (e : Entry) : Statement (.asmb e) := mask_encE 5 e

theorem dpix (y : BitVec 8) (x : BitVec 9) : Statement (.dpix y x) := mask_encYX 6 y x

theorem dlin (y : BitVec 8) : Statement (.dlin y) := mask_encY 7 y

theorem dfrm : Statement .dfrm := rfl

theorem ack : Statement .ack := rfl

end Sys2Proof.Laws.TableRow
end

