-- ==== Sys2Proof/Laws/Step.lean ====
section
/-! SUPPORT. Everything a command, an engine step, a host step and a step of the machine can do, said once. -/

namespace Sys2Proof.Machine

/-! ## What a command's first step can do -/

/-- The effects of a command. -/
inductive ExecEffect (i : Instr) (s : State) : State → Prop where
  | raised (e : ErrCode) : ExecEffect i s (raiseError e s)
  | unwritten (a : Nat) (h : Cells.read s.src a = none) : ExecEffect i s (addFault (.unwrittenSrc a) s)
  | completed (hi : i = .nop ∨ i = .valid) : ExecEffect i s (completeCommand s)
  | acknowledged (hi : i = .ack) : ExecEffect i s (completeAck s)
  | returned (v : Word) : ExecEffect i s (completeCommand (setResult v s))
  | decodedPixel (k : Nat) (px : Rgb) (hk : k < 64000) :
      ExecEffect i s (completeCommand (setResult (resultOfRgb px) (outWrite k px s)))
  | pending (hp : commandPixels i ≠ []) : ExecEffect i s (setPend (commandPixels i) s)

theorem checkArgs_effect {i : Instr} {s : State} {legal : Bool} {body : Host.Outcome State Fault Refusal}
    (h : legal = true → ∃ t, body = .next t ∧ ExecEffect i s t) :
    ∃ t, checkArgs legal s body = .next t ∧ ExecEffect i s t := by
  cases legal
  · exact ⟨_, rfl, .raised _⟩
  · exact h rfl

theorem checkSize_effect {i : Instr} {s : State} {body : Host.Outcome State Fault Refusal}
    (h : ∃ t, body = .next t ∧ ExecEffect i s t) : ∃ t, checkSize s body = .next t ∧ ExecEffect i s t := by
  by_cases hs : s.srcLen = 32768
  · rw [checkSize_ok hs]; exact h
  · rw [checkSize_bad hs]; exact ⟨_, rfl, .raised _⟩

theorem withRead_effect {α : Type} {i : Instr} {s : State} {r : Except Fault α} {k : α → State}
    (hr : ∀ f, r = .error f → ∃ a, f = .unwrittenSrc a ∧ Cells.read s.src a = none)
    (hk : ∀ v, ExecEffect i s (k v)) : ∃ t, withRead r s k = .next t ∧ ExecEffect i s t := by
  cases r with
  | ok v => exact ⟨_, rfl, hk v⟩
  | error f => obtain ⟨a, rfl, ha⟩ := hr f rfl; exact ⟨_, rfl, .unwritten a ha⟩

theorem srcRead_error {s : State} {a : Nat} (f : Fault) (h : srcRead s a = .error f) :
    ∃ b, f = .unwrittenSrc b ∧ Cells.read s.src b = none :=
  ⟨a, (srcRead_eq_error.1 h).2, (srcRead_eq_error.1 h).1⟩

theorem rowPixels_ne_nil (y : Nat) : rowPixels y ≠ [] := fun h => by simpa [h] using length_rowPixels y

theorem framePixels_ne_nil : framePixels ≠ [] := fun h => by simpa [h] using length_framePixels

/-- Every command answers a next state, with one of these effects. -/
theorem exec_effect (i : Instr) (s : State) : ∃ t, exec i s = .next t ∧ ExecEffect i s t := by
  cases i with
  | nop => exact ⟨_, rfl, .completed (.inl rfl)⟩
  | valid => exact checkSize_effect ⟨_, rfl, .completed (.inr rfl)⟩
  | rscb y => exact checkArgs_effect fun _ => checkSize_effect (withRead_effect srcRead_error fun _ => .returned _)
  | unpk y x => exact checkArgs_effect fun _ => checkSize_effect (withRead_effect srcRead_error fun _ => .returned _)
  | pfet p c => exact checkSize_effect (withRead_effect (fun _ => palWord_error) fun _ => .returned _)
  | asmb e => exact ⟨_, rfl, .returned _⟩
  | dpix y x =>
    refine checkArgs_effect fun h => checkSize_effect (withRead_effect (fun _ => pixelColour_error) fun _ => ?_)
    simp only [Bool.and_eq_true, legalY_iff, legalX_iff] at h
    exact .decodedPixel _ _ (pixelNumber_lt h.1 h.2)
  | dlin y =>
    refine checkArgs_effect fun h => checkSize_effect ⟨_, rfl, ?_⟩
    have hp : commandPixels (.dlin y) = rowPixels y.toNat := by simp [commandPixels, h]
    rw [← hp]
    exact .pending (by rw [hp]; exact rowPixels_ne_nil _)
  | dfrm => exact checkSize_effect ⟨_, rfl, .pending framePixels_ne_nil⟩
  | ack => exact ⟨_, rfl, .acknowledged rfl⟩

/-! ## What an engine step can do -/

theorem engineEnabled_iff {s : State} : engineEnabled s = true ↔
    s.status.busy = true ∧ s.cur.isSome = true ∧ engineStuck s = false := by
  simp [engineEnabled, and_assoc]

/-- The effects of an engine turn. -/
inductive EngineEffect (s : State) : State → Prop where
  /-- The engine has no step. -/
  | idle : EngineEffect s s
  /-- The accepted word is illegal (R224). -/
  | illegal (w : Word) (r : Illegal) (hc : s.cur = some w) (hw : decode w = .error r) :
      EngineEffect s (raiseError .illegalCmd s)
  /-- The accepted command's first step. -/
  | first (w : Word) (i : Instr) (t : State) (hc : s.cur = some w) (hw : decode w = .ok i) (hp : s.pend = [])
      (he : engineEnabled s = true) (h : ExecEffect i s t) : EngineEffect s t
  /-- A pixel step that reads an unwritten cell (R52). -/
  | unwritten (a : Nat) (h : Cells.read s.src a = none) : EngineEffect s (addFault (.unwrittenSrc a) s)
  /-- A pixel step that writes a pending pixel (R195). -/
  | pixel (n : Nat) (p : Pixel) (px : Rgb) (he : engineEnabled s = true) (hn : s.pend[n]? = some p)
      (hc : pixelColour s p.y p.x = .ok px) : EngineEffect s (retirePixel n (outWrite (pixelNumber p) px s))

theorem pixelStep_effect {s : State} (he : engineEnabled s = true) (pick : Nat) :
    ∃ t, pixelStep pick s = .next t ∧ EngineEffect s t := by
  unfold pixelStep
  split
  · exact ⟨_, rfl, .idle⟩
  · next p hp =>
    cases hc : pixelColour s p.y p.x with
    | ok px => exact ⟨_, rfl, .pixel _ p px he hp hc⟩
    | error f => obtain ⟨a, rfl, ha⟩ := pixelColour_error hc; exact ⟨_, rfl, .unwritten a ha⟩

/-- Every engine turn answers a next state, with one of these effects. -/
theorem engineTurn_effect (pick : Nat) (s : State) : ∃ t, engineTurn pick s = .next t ∧ EngineEffect s t := by
  unfold engineTurn
  split
  · next he =>
    split
    · exact pixelStep_effect he pick
    · next w hp hc =>
      unfold firstStep
      split
      · next r hw => exact ⟨_, rfl, .illegal w r hc hw⟩
      · next i hw => obtain ⟨t, ht, h⟩ := exec_effect i s; exact ⟨t, ht, .first w i t hc hw hp he h⟩
    · exact ⟨_, rfl, .idle⟩
  · exact ⟨_, rfl, .idle⟩

/-! ## What a step can do -/

/-- The effects of a step that answers a next state. -/
inductive StepEffect (s : State) : State → Prop where
  /-- A host step. -/
  | host (u : State) (h : SameRunBut s u) : StepEffect s (hostTurn u)
  /-- An engine step. -/
  | engine (u t : State) (h : SameRunBut s u) (ht : EngineEffect u t) : StepEffect s t
  /-- The run is at rest. -/
  | rest (h : s.faults = []) : StepEffect s s

/-- A refused run takes no step (R270). -/
theorem step_of_refused {s : State} {f : Fault} (h : refusedBy s = some f) : step s = .fault f := by
  unfold step schedule; rw [h]

theorem step_eq_scheduled {s : State} (h : refusedBy s = none) : step s = scheduledStep s := by
  unfold step schedule; rw [h]

/-- Only a run that is not refused goes on. -/
theorem refusedBy_of_step {s t : State} (h : step s = .next t) : refusedBy s = none := by
  cases hr : refusedBy s with
  | none => rfl
  | some f => rw [step_of_refused hr] at h; cases h

theorem step_effect {s t : State} (h : step s = .next t) : StepEffect s t := by
  rw [step_eq_scheduled (refusedBy_of_step h)] at h
  unfold scheduledStep at h
  split at h
  · cases h; exact .host _ rfl
  · next pick ts _ =>
    obtain ⟨u, hu, he⟩ := engineTurn_effect pick { s with turns := ts }
    rw [hu] at h; cases h
    exact .engine { s with turns := ts } _ rfl he
  · split at h
    · unfold engineFreeTurn at h
      split at h
      · obtain ⟨u, hu, he⟩ := engineTurn_effect 0 s
        rw [hu] at h; cases h
        exact .engine s _ rfl he
      · obtain ⟨u, hu, he⟩ := engineTurn_effect (Config.freePick s.draws) { s with draws := s.draws + 1 }
        rw [hu] at h; cases h
        exact .engine { s with draws := s.draws + 1 } _ rfl he
    · split at h
      · unfold restingStep at h
        split at h
        · next hf => cases h; exact .rest hf
        · cases h
      · cases h; exact .host _ rfl

/-- A step never refuses. -/
theorem step_not_refused (s : State) (r : Refusal) : step s ≠ .refused r := by
  intro h
  unfold step schedule at h
  split at h
  · cases h
  unfold scheduledStep at h
  split at h
  · cases h
  · next pick ts _ => obtain ⟨u, hu, _⟩ := engineTurn_effect pick { s with turns := ts }; rw [hu] at h; cases h
  · split at h
    · unfold engineFreeTurn at h
      split at h
      · obtain ⟨u, hu, _⟩ := engineTurn_effect 0 s; rw [hu] at h; cases h
      · obtain ⟨u, hu, _⟩ := engineTurn_effect (Config.freePick s.draws) { s with draws := s.draws + 1 }
        rw [hu] at h; cases h
    · split at h
      · unfold restingStep at h; split at h <;> cases h
      · cases h

end Sys2Proof.Machine
end

