-- ==== Sys2Proof/Laws/Run.lean ====
section
/-! SUPPORT. One step under each schedule, and a run cut into steps. -/

namespace Sys2Proof.Machine

/-! ## When the engine has no step -/

theorem engineEnabled_of_idle {s : State} (h : s.status.busy = false) : engineEnabled s = false := by
  simp [engineEnabled, h]

theorem engineEnabled_of_stuck {s : State} {a : Nat} (h : .unwrittenSrc a ∈ s.faults) : engineEnabled s = false := by
  simp [engineEnabled, engineStuck_eq_true.2 ⟨a, h⟩]

theorem engineTurn_of_disabled {s : State} (h : engineEnabled s = false) (pick : Nat) : engineTurn pick s = .next s := by
  unfold engineTurn; rw [h]; rfl

/-! ## The first step of an accepted word -/

theorem Accepted.enabled {w : Word} {s : State} (h : Accepted w s) (ts : List Turn) :
    engineEnabled { s with turns := ts } = true :=
  engineEnabled_iff.2 ⟨h.busy, congrArg Option.isSome h.cur_eq, h.not_stuck⟩

theorem Accepted.engineTurn_eq {w : Word} {s : State} (h : Accepted w s) (pick : Nat) (ts : List Turn) :
    engineTurn pick { s with turns := ts } = firstStep w { s with turns := ts } := by
  unfold engineTurn
  rw [if_pos (h.enabled ts)]
  simp only [h.cur_eq, h.pend_eq]

/-- The schedule's next turn is the engine's. -/
theorem Accepted.step_eq {w : Word} {s : State} {pick : Nat} {ts : List Turn} (h : Accepted w s)
    (ht : s.turns = .engine pick :: ts) : step s = firstStep w { s with turns := ts } := by
  rw [step_eq_scheduled h.not_refused]
  unfold scheduledStep
  rw [ht]
  exact h.engineTurn_eq pick ts

/-- The schedule is used up. -/
theorem Accepted.step_eq_free {w : Word} {s : State} (h : Accepted w s) (ht : s.turns = []) : step s = firstStep w s := by
  have e : ({ s with turns := [] } : State) = s := by rw [← ht]
  have he := h.enabled []
  have hf := h.engineTurn_eq 0 []
  rw [e] at he hf
  rw [step_eq_scheduled h.not_refused]
  unfold scheduledStep
  rw [ht]
  dsimp only
  rw [if_pos he]
  unfold engineFreeTurn
  rw [if_pos (by rw [h.pend_eq]; rfl)]
  exact hf

/-! ## Pixel steps -/

theorem retirePixel_more {s : State} {i : Nat} (h : s.pend.eraseIdx i ≠ []) :
    retirePixel i s = setPend (s.pend.eraseIdx i) s := by
  unfold retirePixel; rw [if_neg (by simpa [List.isEmpty_iff] using h)]

theorem retirePixel_last {s : State} {i : Nat} (h : s.pend.eraseIdx i = []) : retirePixel i s = completeCommand s := by
  unfold retirePixel; rw [if_pos (by simpa [List.isEmpty_iff] using h)]

/-- A pixel step the schedule names. -/
theorem step_pixel {s : State} {p : Pixel} {pick : Nat} {ts : List Turn} (hb : s.status.busy = true)
    (hc : s.cur.isSome = true) (hs : engineStuck s = false) (hf : refusedBy s = none) (ht : s.turns = .engine pick :: ts)
    (hp : s.pend[pick % s.pend.length]? = some p) :
    step s = withRead (pixelColour s p.y p.x) { s with turns := ts } fun px =>
      retirePixel (pick % s.pend.length) (outWrite (pixelNumber p) px { s with turns := ts }) := by
  have he : engineEnabled { s with turns := ts } = true := engineEnabled_iff.2 ⟨hb, hc, hs⟩
  obtain ⟨q, qs, hq⟩ : ∃ q qs, s.pend = q :: qs := by
    cases hq : s.pend with
    | nil => rw [hq] at hp; simp at hp
    | cons q qs => exact ⟨q, qs, rfl⟩
  have hmatch : ∀ (a c : Host.Outcome State Fault Refusal) (b : Word → Host.Outcome State Fault Refusal) (o : Option Word),
      (match s.pend, o with | _ :: _, _ => a | [], some w => b w | [], none => c) = a := by
    intro a c b o; rw [hq]
  rw [step_eq_scheduled hf]
  unfold scheduledStep
  rw [ht]
  unfold engineTurn
  dsimp only
  rw [if_pos he]
  refine (hmatch _ _ _ _).trans ?_
  unfold pixelStep
  dsimp only
  rw [hp]
  rfl

/-- Once the schedule is used up, a pixel step is the one that a schedule naming the free pick would take. -/
theorem step_pixel_free {s : State} (hb : s.status.busy = true) (hc : s.cur.isSome = true) (hs : engineStuck s = false)
    (hf : refusedBy s = none) (ht : s.turns = []) (hp : s.pend ≠ []) :
    step s = step { s with turns := [.engine (Config.freePick s.draws)], draws := s.draws + 1 } := by
  have he : engineEnabled s = true := engineEnabled_iff.2 ⟨hb, hc, hs⟩
  have hf' : refusedBy { s with turns := [.engine (Config.freePick s.draws)], draws := s.draws + 1 } = none := hf
  rw [step_eq_scheduled hf, step_eq_scheduled hf']
  conv_lhs => unfold scheduledStep
  rw [ht]
  dsimp only
  rw [if_pos he, engineFreeTurn, if_neg (by simpa [List.isEmpty_iff] using hp)]
  unfold scheduledStep
  dsimp only
  rw [← ht]

/-! ## Engine moves -/

theorem EngineMoves.cases_succ {n : Nat} {s : State} (h : EngineMoves (n + 1) s) :
    s.turns = [] ∨ ∃ pick ts, s.turns = .engine pick :: ts ∧
      (ts = [] ∨ ∃ picks : List Nat, picks.length = n ∧ picks.map Turn.engine <+: ts) := by
  rcases h with h | ⟨picks, hl, hp⟩
  · exact .inl h
  · cases picks with
    | nil => simp at hl
    | cons a as =>
      obtain ⟨r, hr⟩ := hp
      exact .inr ⟨a, as.map Turn.engine ++ r, by rw [← hr]; rfl, .inr ⟨as, by simpa using hl, ⟨r, rfl⟩⟩⟩

/-- The first step of an accepted word, under either kind of schedule. -/
theorem Accepted.step_any {w : Word} {s : State} {n : Nat} (h : Accepted w s) (hm : EngineMoves (n + 1) s) :
    step s = firstStep w { s with turns := s.turns.drop 1 } ∧
      ∀ t : State, t.turns = s.turns.drop 1 → EngineMoves n t := by
  rcases hm.cases_succ with h0 | ⟨pick, ts, h1, h2⟩
  · refine ⟨?_, fun t ht => .inl (by rw [ht, h0]; rfl)⟩
    rw [show s.turns.drop 1 = s.turns by rw [h0]; rfl]
    exact h.step_eq_free h0
  · refine ⟨by rw [h.step_eq h1, h1]; rfl, fun t ht => ?_⟩
    rw [h1] at ht
    rcases h2 with h2 | h2
    · exact .inl (by rw [ht]; exact h2)
    · exact .inr (by rw [ht]; exact h2)

/-- A pixel step, under either kind of schedule: some pending pixel is written and leaves PEND. -/
theorem step_pixel_any {s : State} {n : Nat} (hb : s.status.busy = true) (hc : s.cur.isSome = true)
    (hs : engineStuck s = false) (hf : refusedBy s = none) (hp : s.pend ≠ []) (hm : EngineMoves (n + 1) s)
    (hr : ∀ p ∈ s.pend, Readable s p.y p.x) :
    ∃ i p px d, s.pend[i]? = some p ∧ pixelColour s p.y p.x = .ok px ∧
      step s = .next (retirePixel i (outWrite (pixelNumber p) px { s with turns := s.turns.drop 1, draws := d })) ∧
      ∀ t : State, t.turns = s.turns.drop 1 → EngineMoves n t := by
  have key : ∀ pick, ∃ p, s.pend[pick % s.pend.length]? = some p := fun pick =>
    ⟨_, List.getElem?_eq_getElem (Nat.mod_lt _ (List.length_pos_iff.2 hp))⟩
  rcases hm.cases_succ with h0 | ⟨pick, ts, h1, h2⟩
  · obtain ⟨p, hpk⟩ := key (Config.freePick s.draws)
    obtain ⟨px, hpx⟩ := hr p (List.mem_of_getElem? hpk)
    refine ⟨_, p, px, s.draws + 1, hpk, hpx, ?_, fun t ht => .inl (by rw [ht, h0]; rfl)⟩
    have hst := step_pixel (s := { s with turns := [.engine (Config.freePick s.draws)], draws := s.draws + 1 })
      (p := p) hb hc hs hf rfl hpk
    have hpx' : pixelColour { s with turns := [.engine (Config.freePick s.draws)], draws := s.draws + 1 } p.y p.x =
        .ok px := hpx
    rw [step_pixel_free hb hc hs hf h0 hp, hst, hpx', h0]
    rfl
  · obtain ⟨p, hpk⟩ := key pick
    obtain ⟨px, hpx⟩ := hr p (List.mem_of_getElem? hpk)
    refine ⟨_, p, px, s.draws, hpk, hpx, by rw [step_pixel hb hc hs hf h1 hpk, hpx, h1]; rfl, fun t ht => ?_⟩
    rw [h1] at ht
    rcases h2 with h2 | h2
    · exact .inl (by rw [ht]; exact h2)
    · exact .inr (by rw [ht]; exact h2)

/-! ## A named schedule of engine turns never stops -/

theorem hostAct_turns (a : HostAction) (s : State) : (hostAct a s).turns = s.turns := by
  cases a <;> simp [hostAct, hostSrcWrite, hostCtrlWrite, hostCtrlRead, hostOutReadPixel, hostOutReadByte, hostOutWrite,
    ctrlStore, commandWrite, srcLenWrite, ctrlAdmitted] <;> (repeat' split) <;> simp

theorem hostTurn_turns (s : State) : (hostTurn s).turns = s.turns := by
  unfold hostTurn; split
  · rfl
  · rw [hostAct_turns]; unfold hostAdvance; split <;> rfl

theorem EngineEffect.turns_eq {s t : State} (h : EngineEffect s t) : t.turns = s.turns := by
  cases h with
  | idle => rfl
  | illegal => rfl
  | first w i t hc hw hp he h => cases h <;> simp
  | unwritten => simp
  | pixel n p px he hn hc => unfold retirePixel; split <;> rfl

/-- The engine never makes the model refuse a run. -/
theorem EngineEffect.refusedBy_eq {s t : State} (h : EngineEffect s t) : refusedBy t = refusedBy s := by
  cases h with
  | idle => rfl
  | illegal => rfl
  | first w i t hc hw hp he h => cases h <;> first | rfl | exact refusedBy_addFault _ rfl
  | unwritten => exact refusedBy_addFault _ rfl
  | pixel n p px he hn hc => unfold retirePixel; split <;> rfl

/-- In a run that is not refused, a step that the schedule names answers a next state, with that turn used up. -/
theorem step_of_turn {s : State} {turn : Turn} {ts : List Turn} (hf : refusedBy s = none) (h : s.turns = turn :: ts) :
    ∃ t, step s = .next t ∧ t.turns = ts := by
  rw [step_eq_scheduled hf]
  unfold scheduledStep
  rw [h]
  cases turn with
  | host => exact ⟨_, rfl, hostTurn_turns _⟩
  | engine pick =>
    obtain ⟨t, ht, he⟩ := engineTurn_effect pick { s with turns := ts }
    exact ⟨t, ht, he.turns_eq⟩

/-- An engine turn that the schedule names. -/
theorem step_of_engine_turn {s : State} {pick : Nat} {ts : List Turn} (hf : refusedBy s = none)
    (h : s.turns = .engine pick :: ts) : step s = engineTurn pick { s with turns := ts } := by
  rw [step_eq_scheduled hf]
  unfold scheduledStep
  rw [h]

/-! ## Runs -/

theorem run_succ (n : Nat) (s : State) :
    Host.Core.run Sys2Proof.core (n + 1) s =
      match step s with
      | .next t => Host.Core.run Sys2Proof.core n t
      | .fault r => .fault r
      | .refused r => .refused r := by
  have hc : core.step s = step s := rfl
  rw [Host.Core.run.eq_def Sys2Proof.core (n + 1) s]
  dsimp only
  rw [hc]
  cases step s <;> rfl

theorem run_add (m n : Nat) (s t : State) (h : Host.Core.run Sys2Proof.core m s = .next t) :
    Host.Core.run Sys2Proof.core (m + n) s = Host.Core.run Sys2Proof.core n t := by
  induction m generalizing s with
  | zero => cases h; rw [Nat.zero_add]
  | succ m ih =>
    rw [run_succ] at h
    rw [show m + 1 + n = m + n + 1 by omega, run_succ]
    cases hst : step s with
    | next u => rw [hst] at h; exact ih u h
    | fault r => rw [hst] at h; cases h
    | refused r => rw [hst] at h; cases h

/-- What every step keeps, every run keeps. -/
theorem run_keeps {P : State → Prop} (hP : ∀ s t, P s → step s = .next t → P t) (n : Nat) {s t : State} (hs : P s)
    (h : Host.Core.run Sys2Proof.core n s = .next t) : P t := by
  induction n generalizing s with
  | zero => cases h; exact hs
  | succ n ih =>
    rw [run_succ] at h
    cases hst : step s with
    | next u => rw [hst] at h; exact ih (hP s u hs hst) h
    | fault r => rw [hst] at h; cases h
    | refused r => rw [hst] at h; cases h

/-- A run of the engine turns that the schedule names answers a next state. -/
theorem run_of_engine_turns (picks : List Nat) {s : State} (hf : refusedBy s = none)
    (h : picks.map Turn.engine <+: s.turns) :
    ∃ t : State, Host.Core.run Sys2Proof.core picks.length s = .next t := by
  induction picks generalizing s with
  | nil => exact ⟨s, rfl⟩
  | cons pick picks ih =>
    obtain ⟨rest, hrest⟩ := h
    obtain ⟨u, hu, he⟩ := engineTurn_effect pick { s with turns := picks.map Turn.engine ++ rest }
    have hst : step s = .next u := (step_of_engine_turn hf hrest.symm).trans hu
    rw [List.length_cons, run_succ, hst]
    exact ih (he.refusedBy_eq.trans hf) ⟨rest, he.turns_eq.symm⟩

end Sys2Proof.Machine
end

