-- ==== Sys2Proof/Machine/AssemblerText.lean ====
section
/-! DEFINITION. The assembler's text: literals, operand lists and command lines (R83), on lists of characters. -/

namespace Sys2Proof.Machine

/-- A digit's value in a base; hexadecimal letters in either case. -/
def digitValue (base : Nat) (c : Char) : Option Nat :=
  let v :=
    if 48 ≤ c.toNat ∧ c.toNat ≤ 57 then c.toNat - 48
    else if 65 ≤ c.toNat ∧ c.toNat ≤ 70 then c.toNat - 55
    else if 97 ≤ c.toNat ∧ c.toNat ≤ 102 then c.toNat - 87
    else base
  if v < base then some v else none

/-- The number that digits in a base denote, after the digits read so far. -/
def digitsValue (base acc : Nat) : List Char → Option Nat
  | [] => some acc
  | c :: cs =>
    match digitValue base c with
    | none => none
    | some d => digitsValue base (acc * base + d) cs

/-- An unsigned decimal or `0x` hexadecimal literal. -/
def literalValue : List Char → Option Nat
  | [] => none
  | '0' :: 'x' :: c :: cs => digitsValue 16 0 (c :: cs)
  | c :: cs => digitsValue 10 0 (c :: cs)

/-- A text without the spaces at its ends. -/
def trimSpaces (cs : List Char) : List Char :=
  ((cs.dropWhile (· == ' ')).reverse.dropWhile (· == ' ')).reverse

/-- The parts of a text between its commas. -/
def splitCommas : List Char → List (List Char)
  | [] => [[]]
  | c :: cs =>
    if c = ',' then [] :: splitCommas cs
    else
      match splitCommas cs with
      | [] => [[c]]
      | w :: ws => (c :: w) :: ws

/-- The literals of a list of parts; refused if one is not a literal. -/
def literalValues : List (List Char) → Option (List Nat)
  | [] => some []
  | w :: ws =>
    match literalValue (trimSpaces w), literalValues ws with
    | some n, some ns => some (n :: ns)
    | _, _ => none

/-- The operands after a mnemonic: none, or literals between commas. -/
def operandValues (cs : List Char) : Option (List Nat) :=
  if cs = [] then some [] else literalValues (splitCommas cs)

/-- A mnemonic with as many operands as R83 gives it. -/
def asmOf (name : List Char) (operands : List Nat) : Option Asm :=
  match operands with
  | [] =>
    if name = "NOP".toList then some .nop
    else if name = "VALID".toList then some .valid
    else if name = "DFRM".toList then some .dfrm
    else if name = "ACK".toList then some .ack
    else none
  | [a] =>
    if name = "RSCB".toList then some (.rscb a)
    else if name = "DLIN".toList then some (.dlin a)
    else if name = "ASMB".toList then some (.asmb a)
    else none
  | [a, b] =>
    if name = "UNPK".toList then some (.unpk a b)
    else if name = "DPIX".toList then some (.dpix a b)
    else if name = "PFET".toList then some (.pfet a b)
    else none
  | _ :: _ :: _ :: _ => none

/-- A command line: a mnemonic, then its operands. -/
def parseLine (line : List Char) : Option Asm :=
  let text := trimSpaces line
  match operandValues (trimSpaces (text.dropWhile (· != ' '))) with
  | none => none
  | some operands => asmOf (text.takeWhile (· != ' ')) operands

/-- The assembler on a line of text: the command word, or a refusal. -/
def assembleLine (line : List Char) : Option Word :=
  match parseLine line with
  | none => none
  | some a => (assembleAsm a).map encode

end Sys2Proof.Machine
end

