-- ==== Sys2Proof/Tests/Slice0.lean ====
section
/-! SUPPORT. The model's own tests: ill-formed commands, words written out from the spec's encodings, single steps of the
spec's test vectors (95_test_vectors.md), and a witness for every statement that has hypotheses. -/

namespace Sys2Proof.Tests

open Sys2Proof.Machine

/-! ## Small states -/

/-- What a step that went on leaves. -/
def answers (o : Host.Outcome State Fault Refusal) (p : State → Bool) : Bool :=
  match o with
  | .next t => p t
  | .fault _ => false
  | .refused _ => false

/-- `s` with command word `w` accepted and the engine's turn next. -/
def accepted (w : Word) (s : State) : State :=
  { s with cur := some w, status := s.status.accept, turns := [.engine 0] }

/-- A state with a right length, the given SRC bytes, and 0x77 in RESULT. -/
def withSrc (cells : List (Nat × Nat)) : State :=
  { State.reset with
    srcLen := 32768, result := 0x77, src := cells.map fun cell => (cell.1, BitVec.ofNat 8 cell.2) }

/-- The bytes that matter of state S1 of 95_test_vectors.md, section 2.5. -/
def s1 : State :=
  withSrc [(0, 0x12), (160, 0x12), (32000, 0x00), (32001, 0x01), (32256, 0x00), (32257, 0x00), (32258, 0x00),
    (32259, 0x0F), (32260, 0xF0), (32261, 0x00), (32290, 0x0F), (32291, 0x00), (32292, 0xFF), (32293, 0x0F)]

/-- Command word `w`, run from `s`, leaves these STATUS and RESULT words. -/
def ends (w : Word) (s : State) (status result : Word) : Bool :=
  answers (step (accepted w s)) fun t => t.status.word == status && t.result == result

/-- A whole SRC of 32,768 bytes given by a function, a right length, and word `w` accepted under the schedule `turns`. -/
def loaded (f : Nat → Byte) (w : Word) (turns : List Turn) : State :=
  { State.reset with
    srcLen := 32768, src := (List.range 32768).map fun a => (a, f a), cur := some w,
    status := State.reset.status.accept, turns := turns }

/-- `n` engine turns that each take the pending pixel at position `pick`. -/
def engineTurns (n pick : Nat) : List Turn := (List.replicate n pick).map .engine

theorem loaded_read (f : Nat → Byte) (w : Word) (turns : List Turn) {a : Nat} (h : a < 32768) :
    Cells.read (loaded f w turns).src a = some (f a) := by
  simp only [loaded]
  rw [Cells.read_map_range f _ a h]

theorem loaded_accepted (f : Nat → Byte) (w : Word) (turns : List Turn) : Accepted w (loaded f w turns) :=
  ⟨rfl, rfl, rfl, rfl, rfl⟩

theorem loaded_same_run (f : Nat → Byte) (w : Word) (turns turns' : List Turn) :
    SameRunBut (loaded f w turns) (loaded f w turns') := by
  simp only [SameRunBut, loaded]

theorem loaded_moves (f : Nat → Byte) (w : Word) (n pick : Nat) : EngineMoves n (loaded f w (engineTurns n pick)) :=
  .inr ⟨List.replicate n pick, List.length_replicate, List.prefix_rfl⟩

theorem loaded_readable (f : Nat → Byte) (w : Word) (turns : List Turn) {y x : Nat} (hy : y < 200) (hx : x < 320) :
    Readable (loaded f w turns) y x := by
  have hp := (selectorIndex (f (scbAddr y))).isLt
  have hc := (nibbleOf (f (byteIndex y x)) x).isLt
  refine ⟨_, pixelColour_of_bytes (loaded_read f w turns ?_) (loaded_read f w turns ?_) (loaded_read f w turns ?_)
    (loaded_read f w turns ?_)⟩ <;>
  simp only [scbAddr, byteIndex, paletteLoAddr, paletteHiAddr, paletteIndex, Config.scbBase, Config.rowBytes,
    Config.palBase] <;> omega

theorem loaded_runs (f : Nat → Byte) (w : Word) (n pick : Nat) :
    ∃ t : State, Host.Core.run Sys2Proof.core n (loaded f w (engineTurns n pick)) = .next t := by
  have h := run_of_engine_turns (List.replicate n pick) (s := loaded f w (engineTurns n pick)) rfl List.prefix_rfl
  rwa [List.length_replicate] at h

/-! ## Ill-formed commands (R77) -/

theorem test_rscb_row_200_is_ill_formed : (Instr.rscb 200).WellFormed = false := by decide
theorem test_rscb_row_199_is_well_formed : (Instr.rscb 199).WellFormed = true := by decide
theorem test_unpk_row_200_is_ill_formed : (Instr.unpk 200 0).WellFormed = false := by decide
theorem test_unpk_column_320_is_ill_formed : (Instr.unpk 0 320).WellFormed = false := by decide
theorem test_unpk_last_pixel_is_well_formed : (Instr.unpk 199 319).WellFormed = true := by decide
theorem test_dpix_row_200_is_ill_formed : (Instr.dpix 200 0).WellFormed = false := by decide
theorem test_dpix_column_320_is_ill_formed : (Instr.dpix 0 320).WellFormed = false := by decide
theorem test_dlin_row_200_is_ill_formed : (Instr.dlin 200).WellFormed = false := by decide

/-! ## Words written out field by field from the formats N, Y, YX, PC and E (R71 to R76), high bits first -/

theorem test_decode_nop : decode (0#28 ++ 0b0000#4) = .ok .nop := by decide
theorem test_decode_valid : decode (0#28 ++ 0b0001#4) = .ok .valid := by decide
theorem test_decode_rscb : decode (0#20 ++ 0b00000101#8 ++ 0b0010#4) = .ok (.rscb 5) := by decide
theorem test_decode_unpk : decode (0#11 ++ 0b100111111#9 ++ 0b11000111#8 ++ 0b0011#4) = .ok (.unpk 199 319) := by decide
theorem test_decode_pfet : decode (0#20 ++ 0b0011#4 ++ 0b0010#4 ++ 0b0100#4) = .ok (.pfet 2 3) := by decide
theorem test_decode_asmb : decode (0b0000101010111100#16 ++ 0#12 ++ 0b0101#4) = .ok (.asmb 0x0ABC) := by decide
theorem test_decode_dpix : decode (0#11 ++ 0b000000001#9 ++ 0b00000000#8 ++ 0b0110#4) = .ok (.dpix 0 1) := by decide
theorem test_decode_dlin : decode (0#20 ++ 0b11001000#8 ++ 0b0111#4) = .ok (.dlin 200) := by decide
theorem test_decode_dfrm : decode (0#28 ++ 0b1000#4) = .ok .dfrm := by decide
theorem test_decode_ack : decode (0#28 ++ 0b1001#4) = .ok .ack := by decide

/-- The reserved words of 95_test_vectors.md, sections 2.1 to 2.4 and 2.6. -/
theorem test_decode_reserved_words :
    [0x00000010, 0x80000009, 0x00001002, 0x00200003, 0x00001004, 0x00000015, 0x80190FA6].map decode =
      List.replicate 7 (.error .reservedBits) ∧
    [0x0000000A, 0x0000000F].map decode = List.replicate 2 (.error .reservedOpcode) := by decide

/-- Lines of R82's examples and of program P1, with the words the spec gives them. -/
theorem test_assemble_lines :
    assembleLine "DPIX 0, 1".toList = some 0x00001006 ∧ assembleLine "ASMB 0x0ABC".toList = some 0x0ABC0005 ∧
    assembleLine "PFET 15, 15".toList = some 0x00000FF4 ∧ assembleLine "VALID".toList = some 0x00000001 := by decide

/-- R83: a row that does not fit its field is refused and row 200 is not; so are a wrong number of operands and a bad literal. -/
theorem test_assembler_refuses :
    assembleLine "DLIN 256".toList = none ∧ assembleLine "DLIN 200".toList = some 0x00000C87 ∧
    assembleLine "UNPK 5".toList = none ∧ assembleLine "RSCB 0x".toList = none := by decide

/-! ## Single steps: 95_test_vectors.md, sections 2.1 to 2.6 -/

theorem test_nop : ends 0x00000000 (withSrc []) 0x02 0x77 = true := by decide
theorem test_nop_bit_4 : ends 0x00000010 (withSrc []) 0x24 0x77 = true := by decide
theorem test_valid : ends 0x00000001 (withSrc []) 0x02 0x77 = true := by decide
theorem test_valid_compares_whole : ends 0x00000001 { withSrc [] with srcLen := 0x00018000 } 0x14 0x77 = true := by decide

/-- STATUS 0x1C: OVR and FMT_SIZE are both gone after ACK. -/
theorem test_ack :
    ends 0x00000009 { withSrc [] with status := ⟨false, false, true, true, 1⟩ } 0x00 0x77 = true := by decide
theorem test_illegal_ack_keeps_ovr :
    ends 0x80000009 { withSrc [] with status := ⟨false, false, false, true, 0⟩ } 0x2C 0x77 = true := by decide

theorem test_rscb : ends 0x00000C72 (withSrc [(32199, 0xF3)]) 0x02 0x0000F303 = true := by decide
theorem test_rscb_row_200 : ends 0x00000C82 (withSrc [(32200, 0xF3)]) 0x34 0x77 = true := by decide
theorem test_unpk_even : ends 0x0013EC73 (withSrc [(31999, 0x9E)]) 0x02 0x00009E09 = true := by decide
theorem test_unpk_odd : ends 0x0013FC73 (withSrc [(31999, 0x9E)]) 0x02 0x00009E0E = true := by decide
theorem test_pfet : ends 0x00000324 (withSrc [(32326, 0x21), (32327, 0xF3)]) 0x02 0x0000F321 = true := by decide
theorem test_pfet_wrong_length :
    ends 0x00000004 { withSrc [(32256, 0), (32257, 0)] with srcLen := 32769 } 0x14 0x77 = true := by decide
theorem test_asmb : ends 0x0ABC0005 State.reset 0x02 0xFFCCBBAA = true := by decide
theorem test_asmb_other_layout :
    ends 0x0ABC0005 { State.reset with config := ⟨true, ⟨.p4, .p8, .p12⟩⟩ } 0x02 0xFF00AABB = true := by decide
theorem test_dpix : ends 0x00001016 s1 0x02 0xFFFFFFFF = true := by decide
theorem test_dpix_writes_its_cell :
    answers (step (accepted 0x00000016 s1)) (fun t => t.out == [(320, ⟨0, 0, 0xFF⟩)]) = true := by decide
theorem test_dlin_row_200 : ends 0x00000C87 s1 0x34 0x77 = true := by decide
theorem test_dlin_starts_its_row :
    exec (.dlin 1) s1 = .next { s1 with pend := (List.range 320).map fun x => ⟨1, x⟩ } := rfl
theorem test_dfrm_wrong_length : ends 0x00000008 { s1 with srcLen := 0 } 0x14 0x77 = true := by decide
theorem test_dfrm_starts_the_frame : exec .dfrm s1 = .next { s1 with pend := framePixels } := rfl

/-- A pixel step of DLIN 0 takes the second pending pixel and leaves the first. -/
theorem test_pixel_step :
    answers (step { accepted 0x00000007 s1 with pend := [⟨0, 0⟩, ⟨0, 1⟩], turns := [.engine 3] })
      (fun t => t.out == [(1, ⟨0, 0xFF, 0⟩)] && t.pend == [⟨0, 0⟩] && t.status.busy && t.result == 0x77) = true := by
  decide

/-- The last pixel step completes the command. -/
theorem test_last_pixel_step :
    answers (step { accepted 0x00000007 s1 with pend := [⟨0, 0⟩], turns := [.engine 7] })
      (fun t => t.out == [(0, ⟨0xFF, 0, 0⟩)] && t.pend == [] && t.status.word == 0x02 && t.cur == none) = true := by
  decide

/-- Section 2.6, and `RSCB 0` on an unwritten selector (2.2): the record is added, and the engine stays busy. -/
theorem test_priority :
    ends 0x00190FA6 State.reset 0x34 0 = true ∧ ends 0x80190FA6 State.reset 0x24 0 = true ∧
    ends 0x00000006 State.reset 0x14 0 = true := by decide
theorem test_unwritten_selector :
    answers (step (accepted 0x00000002 (withSrc []))) (fun t => t.faults == [.unwrittenSrc 32000] && t.status.busy) =
      true := by decide

/-! ## The host's side -/

/-- Section 2.1: CONFIG, CMD and a reserved offset as they read; a 16-bit read of STATUS is refused. -/
theorem test_control_reads :
    (hostAct (.ctrlRead 0x10 32) State.reset).readData = some (.word 0x61) ∧
    (hostAct (.ctrlRead 0x00 32) s1).readData = some (.word 0) ∧
    (hostAct (.ctrlRead 0x80 32) s1).readData = some (.word 0) ∧
    (hostAct (.ctrlRead 0x04 16) s1).faults = [.hostCtrlAccess 4 16] := by decide

/-- Section 2.1: a command write while BUSY = 1 is dropped and sets OVR. -/
theorem test_overrun :
    (hostAct (.ctrlWrite 0x00 32 0) (accepted 0x00000008 s1)).cur = some 0x00000008 ∧
    (hostAct (.ctrlWrite 0x00 32 0) (accepted 0x00000008 s1)).status.word = 0x09 := by decide

/-- Section 2.5: with `OUT_ALPHA = false`, cell 320 is at byte offset 960, holding 00 00 FF. -/
theorem test_out_bytes_without_alpha :
    let s : State := { s1 with out := [(320, ⟨0, 0, 0xFF⟩)], config := ⟨false, ⟨.p8, .p4, .p0⟩⟩ }
    (hostAct (.outReadByte 960) s).readData = some (.byte 0) ∧ (hostAct (.outReadByte 962) s).readData = some (.byte 0xFF) ∧
    (hostAct (.outReadPixel 1) s).faults = [.unwrittenOut 1] := by decide

/-- R270: after a write of SRC while a DLIN is under way, the engine does not go on to the next pixel: the run is refused. -/
theorem test_hazard_refuses_the_run :
    let t := hostAct (.srcWrite 0 0xFF) { accepted 0x00000007 s1 with pend := [⟨0, 0⟩, ⟨0, 1⟩] }
    t.faults = [.hostHazard (.src 0)] ∧ step t = .fault (.hostHazard (.src 0)) := ⟨by decide, rfl⟩

/-- R260: reset clears STATUS, SRC and a command under way, and keeps FAULT. -/
theorem test_reset :
    let t := hostAct .reset { accepted 0x00000008 s1 with faults := [.hostSrcRange 40000], pend := [⟨0, 0⟩] }
    t.status.word = 0 ∧ t.src = [] ∧ t.cur = none ∧ t.pend = [] ∧ t.faults = [.hostSrcRange 40000] := by decide

/-- `WAIT` stays while BUSY = 1 and goes on once it is 0 (R84). -/
theorem test_wait :
    answers (step { accepted 0x00000000 s1 with prog := [.wait], turns := [.host] })
      (fun t => t.prog == [.wait] && t.readData == some (.word 0x01)) = true ∧
    answers (step { s1 with prog := [.wait] }) (fun t => t.prog == [] && t.readData == some (.word 0)) = true := by decide

/-! ## Witnesses: concrete states and operands that meet a statement's hypotheses, clause by clause -/

/-- S1 with its first two OUT cells and its last one written. -/
def s1Out : State := { s1 with out := [(0, ⟨1, 2, 3⟩), (1, ⟨4, 5, 6⟩), (63999, ⟨7, 8, 9⟩)] }

/-- S1 in the middle of `DLIN 0`, with the first two pixels of the row still to write. -/
def s1Row : State := { accepted 0x00000007 s1 with pend := [⟨0, 0⟩, ⟨0, 1⟩] }

theorem witness_EncodeOfDecodeIsTheWord : decode 0x0013FC76 = .ok (.dpix 199 319) := by decide

theorem witness_ReservedEncodingsAreIllegal_opcodes :
    10 ≤ (BitVec.extractLsb' 0 4 0x0000000A#32).toNat ∧ 10 ≤ (BitVec.extractLsb' 0 4 0xFFFFFFFF#32).toNat ∧
    decode 0x0000000A = .error .reservedOpcode ∧ (accepted 0x0000000A s1).turns = [.engine 0] := by decide

/-- One word of each opcode whose reserved bits are not all 0: its opcode, and those bits. -/
theorem witness_ReservedEncodingsAreIllegal_bits :
    (∀ c ∈ [(0x00000010#32, 0#4), (0x80000001, 1), (0x00000018, 8), (0x80000009, 9)],
      c.1.extractLsb' 0 4 = c.2 ∧ c.1 &&& 0xFFFFFFF0 ≠ 0) ∧
    (∀ c ∈ [(0x00001002#32, 2#4), (0x80000FF7, 7), (0x00001004, 4)],
      c.1.extractLsb' 0 4 = c.2 ∧ c.1 &&& 0xFFFFF000 ≠ 0) := by simp
theorem witness_ReservedEncodingsAreIllegal_more_bits :
    (∀ c ∈ [(0x00200003#32, 3#4), (0x80000006, 6)], c.1.extractLsb' 0 4 = c.2 ∧ c.1 &&& 0xFFE00000 ≠ 0) ∧
    BitVec.extractLsb' 0 4 0xFFFF8005#32 = 5#4 ∧ 0xFFFF8005#32 &&& 0x0000FFF0 ≠ 0 := by simp

theorem witness_ReservedEncodingsAreIllegal_accepted : Accepted 0x0000000A (accepted 0x0000000A s1) := ⟨rfl, rfl, rfl, rfl, rfl⟩

theorem witness_OperandsAreTheirFields :
    decode 0x00000FF2 = .ok (.rscb 255) ∧ decode 0x00000FF7 = .ok (.dlin 255) ∧ decode 0x001FFFF3 = .ok (.unpk 255 511) ∧
    decode 0x001FFFF6 = .ok (.dpix 255 511) ∧ decode 0x00000FF4 = .ok (.pfet 15 15) ∧
    decode 0xFFFF0005 = .ok (.asmb 0xFFFF) := by decide

theorem witness_ControlRegistersReadAndWrite : s1.status.busy = false := rfl

theorem witness_ReservedOffsetsAreInert :
    (0x14 ≤ 0x14 ∧ 0x14 ≤ 0xFC ∧ 0x14 % 4 = 0) ∧ 0x14 ≤ 0xFC ∧ 0xFC ≤ 0xFC ∧ 0xFC % 4 = 0 := by decide

theorem witness_BadControlAccessIsRefused : 16 ≠ 32 ∧ 0x06 % 4 ≠ 0 ∧ 0x100 ≤ 0x100 := by decide

theorem witness_CommandWriteAcceptsOrOverruns :
    s1.status.busy = false ∧ (accepted 0x00000008 s1).status.busy = true := by decide

theorem witness_HostSrcWritesAreByteWise :
    (32767 < 32768 ∧ s1.status.busy = false) ∧ 32768 ≤ 32768 ∧ 32766 + 2 ≤ 32768 := ⟨⟨by omega, rfl⟩, by omega, by omega⟩

theorem witness_HostWriteWhileBusyIsAHazard :
    ((accepted 0x00000008 s1).status.busy = true ∧ 32767 < 32768 ∧
      ∀ g, .hostHazard g ∉ (accepted 0x00000008 s1).faults) ∧
    Fault.hostHazard .srcLen ∈ { s1 with faults := [.hostOutWrite 0, .hostHazard .srcLen] }.faults :=
  ⟨⟨by decide, by decide, refusedBy_eq_none.1 rfl⟩, by decide⟩

theorem witness_OutReadsReturnTheByteImage :
    (0 < 64000 ∧ Cells.read s1Out.out 0 = some ⟨1, 2, 3⟩ ∧ s1Out.config.outAlpha = true) ∧
    63999 < 64000 ∧ Cells.read s1Out.out 63999 = some ⟨7, 8, 9⟩ ∧
    { s1Out with config := ⟨false, s1.config.layout⟩ }.config.outAlpha = false := by decide

theorem witness_BadOutAccessIsRefused :
    s1Out.config.outAlpha = true ∧
    (255995 < 64000 * 4 ∧ Cells.read s1Out.out (255995 / 4) = none) ∧ 64000 * 4 ≤ 256000 ∧
    (63998 < 64000 ∧ Cells.read s1Out.out 63998 = none) ∧ 64000 ≤ 64000 := by decide

/-- The same clauses where a pixel has three bytes. -/
theorem witness_BadOutAccessIsRefused_without_alpha :
    let s : State := { s1Out with config := ⟨false, s1.config.layout⟩ }
    s.config.outAlpha = false ∧ (191996 < 64000 * 3 ∧ Cells.read s.out (191996 / 3) = none) ∧ 64000 * 3 ≤ 192000 ∧
    (63998 < 64000 ∧ Cells.read s.out 63998 = none) ∧ 64000 ≤ 64000 := by decide

theorem witness_EachMemoryHasOneWriter :
    (engineTurn 0 (accepted 0x00001016 s1) = .next (completeCommand (setResult 0xFFFFFFFF
      (outWrite 321 ⟨0xFF, 0xFF, 0xFF⟩ (accepted 0x00001016 s1))))) ∧ HostAction.outWrite 0 0 ≠ .reset := by
  exact ⟨rfl, by decide⟩

theorem witness_LoadImagePutsTheBytesInSrc :
    s1.status.busy = false ∧ 32767 < min (List.replicate 32769 (0 : Byte)).length 32768 ∧
    min (List.replicate 32769 (0 : Byte)).length 32768 ≤ 32768 ∧
    (List.replicate 32769 (0 : Byte)).length ≠ 32768 ∧ (List.replicate 32769 (0 : Byte)).length < 2 ^ 32 := by
  rw [List.length_replicate]
  exact ⟨rfl, by omega, by omega, by omega, by omega⟩

theorem witness_HostStepRunsTheNextAction :
    refusedBy s1 = none ∧ ({ s1 with prog := [.wait, .reset], turns := [.host] }.prog = [.wait, .reset] ∧
      { s1 with prog := [.wait, .reset], turns := [.host] }.turns = [.host]) ∧
    { s1 with prog := [.reset] }.prog = [.reset] ∧ { s1 with prog := [.reset] }.turns = [] ∧
    { s1 with prog := [.reset] }.status.busy = false := by decide

theorem witness_StepRunsTheDecodedCommand :
    Accepted 0x00000052 (accepted 0x00000052 s1) ∧ decode 0x00000052 = .ok (.rscb 5) ∧
    (accepted 0x00000052 s1).turns = [.engine 0] ∧ 0xFFFF0005 < 2 ^ 32 ∧
    decodeTableWord 32 0xFFFF0005 = some (.asmb 0xFFFF) := by
  exact ⟨⟨rfl, rfl, rfl, rfl, rfl⟩, by decide, rfl, by decide, by decide⟩
theorem witness_StepRunsTheDecodedCommand_free :
    Accepted 0x00000052 { accepted 0x00000052 s1 with turns := [] } ∧
    { accepted 0x00000052 s1 with turns := [] }.turns = [] := ⟨⟨rfl, rfl, rfl, rfl, rfl⟩, rfl⟩

theorem witness_EngineHasNoStepWhenIdleOrStuck :
    refusedBy s1 = none ∧ refusedBy { accepted 0x00000007 s1 with faults := [.unwrittenSrc 5] } = none ∧
    ({ s1 with turns := [.engine 0] }.status.busy = false ∧ { s1 with turns := [.engine 0] }.turns = [.engine 0]) ∧
    Fault.unwrittenSrc 5 ∈ { accepted 0x00000007 s1 with faults := [.unwrittenSrc 5] }.faults ∧
    { accepted 0x00000007 s1 with faults := [.unwrittenSrc 5] }.turns = [.engine 0] := by decide

theorem witness_EndedRunsRestAndFailedRunsFault :
    EndOfRun s1Out ∧ s1Out.turns = [] ∧ refusedBy { s1 with faults := [.hostOutWrite 3] } = none ∧
    { s1 with faults := [.hostOutWrite 3] }.faults = [.hostOutWrite 3] ∧
    { s1 with faults := [.hostOutWrite 3] }.prog = [] ∧ { s1 with faults := [.hostOutWrite 3] }.status.busy = false :=
  ⟨⟨rfl, rfl, rfl⟩, rfl, rfl, rfl, rfl, rfl⟩

/-! ### The commands -/

theorem witness_ValidChecksTheLength : s1.srcLen = 32768 ∧ { s1 with srcLen := 32769 }.srcLen ≠ 32768 := by decide

theorem witness_AckClearsTheStatus :
    s1.status.busy = false ∧
    exec .ack (hostAct (.ctrlWrite 0x00 32 (encode .ack)) s1) =
      .next (completeAck (hostAct (.ctrlWrite 0x00 32 (encode .ack)) s1)) := ⟨rfl, rfl⟩

theorem witness_RscbResolvesTheSelector :
    200 ≤ (200 : BitVec 8).toNat ∧ (199 : BitVec 8).toNat < 200 ∧ { s1 with srcLen := 0 }.srcLen ≠ 32768 ∧
    s1.srcLen = 32768 ∧ Cells.read s1.src (32000 + (1 : BitVec 8).toNat) = some 0x01 ∧
    Cells.read s1.src (32000 + (199 : BitVec 8).toNat) = none := by decide

theorem witness_UnpkUnpacksTheNibble :
    200 ≤ (200 : BitVec 8).toNat ∧ 320 ≤ (320 : BitVec 9).toNat ∧ (199 : BitVec 8).toNat < 200 ∧
    (319 : BitVec 9).toNat < 320 ∧ { s1 with srcLen := 0 }.srcLen ≠ 32768 ∧ s1.srcLen = 32768 ∧
    Cells.read s1.src ((1 : BitVec 8).toNat * 160 + (1 : BitVec 9).toNat / 2) = some 0x12 ∧
    Cells.read s1.src ((199 : BitVec 8).toNat * 160 + (319 : BitVec 9).toNat / 2) = none := by decide

theorem witness_PfetFetchesThePaletteWord :
    { s1 with srcLen := 32767 }.srcLen ≠ 32768 ∧ s1.srcLen = 32768 ∧
    Cells.read s1.src (32256 + 2 * (16 * (1 : Nibble).toNat + (2 : Nibble).toNat)) = some 0xFF ∧
    Cells.read s1.src (32256 + 2 * (16 * (1 : Nibble).toNat + (2 : Nibble).toNat) + 1) = some 0x0F ∧
    Cells.read s1.src (32256 + 2 * (16 * (15 : Nibble).toNat + (15 : Nibble).toNat)) = none ∧
    Cells.read (withSrc [(32766, 0xFF)]).src (32256 + 2 * (16 * (15 : Nibble).toNat + (15 : Nibble).toNat)) = some 0xFF ∧
    Cells.read (withSrc [(32766, 0xFF)]).src (32256 + 2 * (16 * (15 : Nibble).toNat + (15 : Nibble).toNat) + 1) =
      none := by decide

theorem witness_DpixDecodesOnePixel :
    200 ≤ (255 : BitVec 8).toNat ∧ 320 ≤ (320 : BitVec 9).toNat ∧ (199 : BitVec 8).toNat < 200 ∧
    (319 : BitVec 9).toNat < 320 ∧ { s1 with srcLen := 0 }.srcLen ≠ 32768 ∧ s1.srcLen = 32768 ∧
    pixelColour s1 (1 : BitVec 8).toNat (1 : BitVec 9).toNat = .ok ⟨0xFF, 0xFF, 0xFF⟩ ∧
    pixelColour s1 (199 : BitVec 8).toNat (319 : BitVec 9).toNat = .error (.unwrittenSrc 32199) := by decide

theorem witness_DlinFirstStepFillsPend :
    200 ≤ (200 : BitVec 8).toNat ∧ (199 : BitVec 8).toNat < 200 ∧ { s1 with srcLen := 0 }.srcLen ≠ 32768 ∧
    s1.srcLen = 32768 := by decide

theorem witness_DfrmFirstStepFillsPend : { s1 with srcLen := 0 }.srcLen ≠ 32768 ∧ s1.srcLen = 32768 := by decide

/-! ### Errors -/

theorem witness_ErrorsComeInPriorityOrder :
    Accepted 0x80190FA6 (accepted 0x80190FA6 State.reset) ∧ decode 0x80190FA6 = .error .reservedBits ∧
    Accepted 0x00190FA6 (accepted 0x00190FA6 State.reset) ∧ decode 0x00190FA6 = .ok (.dpix 250 400) ∧
    (Instr.dpix 250 400).WellFormed = false ∧
    Accepted 0x00000006 (accepted 0x00000006 State.reset) ∧ decode 0x00000006 = .ok (.dpix 0 0) ∧
    (Instr.dpix 0 0).WellFormed = true ∧ Instr.dpix 0 0 ≠ .nop ∧ Instr.dpix 0 0 ≠ .ack ∧
    (∀ e, Instr.dpix 0 0 ≠ .asmb e) ∧ (accepted 0x00000006 State.reset).srcLen ≠ 32768 := by
  exact ⟨⟨rfl, rfl, rfl, rfl, rfl⟩, by decide, ⟨rfl, rfl, rfl, rfl, rfl⟩, by decide, by decide, ⟨rfl, rfl, rfl, rfl, rfl⟩, by decide,
    by decide, by decide, by decide, fun e => by simp, by decide⟩

theorem witness_ErrorsArePrecise :
    ∃ t, Accepted 0x00140006 (accepted 0x00140006 s1Out) ∧ (accepted 0x00140006 s1Out).status.err = false ∧
      (accepted 0x00140006 s1Out).turns = [.engine 0] ∧ step (accepted 0x00140006 s1Out) = .next t ∧
      t.status.err = true :=
  ⟨_, ⟨rfl, rfl, rfl, rfl, rfl⟩, rfl, rfl, rfl, rfl⟩

theorem witness_UnwrittenSrcStopsTheEngine :
    let s : State := { accepted 0x00000C77 s1 with pend := [⟨199, 318⟩, ⟨199, 319⟩] }
    s.status.busy = true ∧ s.cur.isSome = true ∧ engineStuck s = false ∧ refusedBy s = none ∧ s.turns = [.engine 0] ∧
    s.pend[0 % s.pend.length]? = some ⟨199, 318⟩ ∧ pixelColour s 199 318 = .error (.unwrittenSrc 32199) := by decide

/-! ### Frames -/

theorem witness_ControlCommandFrame :
    (∃ t, exec .nop s1Out = .next t) ∧ (∃ t, exec .valid s1Out = .next t) ∧ ∃ t, exec .ack s1Out = .next t :=
  ⟨⟨_, rfl⟩, ⟨_, rfl⟩, _, rfl⟩

theorem witness_ValueCommandFrame :
    exec (.rscb 1) s1Out = .next (completeCommand (setResult 0x0101 s1Out)) ∧
    exec (.unpk 1 1) s1Out = .next (completeCommand (setResult 0x1202 s1Out)) ∧
    exec (.pfet 1 2) s1Out = .next (completeCommand (setResult 0x0FFF s1Out)) ∧
    exec (.asmb 0x0ABC) s1Out = .next (completeCommand (setResult 0xFFCCBBAA s1Out)) := ⟨rfl, rfl, rfl, rfl⟩

theorem witness_DpixFrame :
    exec (.dpix 1 1) s1Out =
      .next (completeCommand (setResult 0xFFFFFFFF (outWrite 321 ⟨0xFF, 0xFF, 0xFF⟩ s1Out))) := rfl

theorem witness_LineAndFrameFirstStepFrame :
    exec (.dlin 199) s1Out = .next (setPend (rowPixels 199) s1Out) ∧ exec .dfrm s1Out = .next (setPend framePixels s1Out) :=
  ⟨rfl, rfl⟩

/-! ### The datapath -/

theorem witness_EngineAddressesAreInRange : 199 < 200 ∧ 319 < 320 ∧ 0 < 200 ∧ 0 < 320 := by decide

theorem witness_ColourAssemblyIsExact :
    (14 : Nibble).toNat < (15 : Nibble).toNat ∧ (0xFABC : Entry) &&& 0x0FFF = 0x0ABC &&& 0x0FFF := by decide

theorem witness_PixelRefinesTheImageFunction :
    199 < 200 ∧ 319 < 320 ∧ ∀ a, a < 32768 →
      (Cells.read (loaded (BitVec.ofNat 8) 0 []).src a).map BitVec.toNat = some (BitVec.ofNat 8 a).toNat :=
  ⟨by decide, by decide, fun a h => by rw [loaded_read _ _ _ h]; rfl⟩

/-- Each of the four reads in turn is the first that finds nothing; then all four are there. -/
theorem witness_PixelReadsFourBytesInOrder :
    Cells.read s1.src (32000 + 2) = none ∧
    (Cells.read s1.src (32000 + 1) = some 0x01 ∧ Cells.read s1.src (1 * 160 + 319 / 2) = none) ∧
    (Cells.read s1.src (1 * 160 + 1 / 2) = some 0x12 ∧ Cells.read (withSrc [(160, 0x12), (32001, 0x01)]).src 32292 = none) ∧
    (Cells.read (withSrc [(160, 0x12), (32001, 0x01), (32292, 0xFF)]).src 32292 = some 0xFF ∧
      Cells.read (withSrc [(160, 0x12), (32001, 0x01), (32292, 0xFF)]).src 32293 = none) ∧
    32256 + 2 * (16 * ((0x01 : Byte).toNat % 16) + (0x12 : Byte).toNat % 16) = 32292 ∧
    { s1Out with result := 5 }.config = s1.config ∧
    ∀ a ∈ [32001, 160, 32292, 32293], Cells.read { s1Out with result := 5 }.src a = Cells.read s1.src a := by decide

theorem witness_SelectorHighBitsAndPaddingHaveNoEffect :
    (199 < 200 ∧ (0x01 : Byte).toNat % 16 = (0xF1 : Byte).toNat % 16) ∧
    (32200 ≤ 32200 ∧ 32255 ≤ 32255) ∧
    exec (.rscb 1) s1 = .next (completeCommand (setResult 0x0101 s1)) := ⟨by decide, by decide, rfl⟩

/-! ### Lines and frames -/

/-- Turn 3 takes the second of two pending pixels; and the last one. -/
theorem witness_PixelStepWritesOnePendingPixel :
    (s1Row.status.busy = true ∧ s1Row.cur.isSome = true ∧ engineStuck s1Row = false ∧ refusedBy s1Row = none ∧
      { s1Row with turns := [.engine 3] }.turns = [.engine 3] ∧ s1Row.pend[3 % s1Row.pend.length]? = some ⟨0, 1⟩ ∧
      pixelColour s1Row 0 1 = .ok ⟨0, 0xFF, 0⟩ ∧ s1Row.pend.eraseIdx (3 % s1Row.pend.length) ≠ []) ∧
    { s1Row with pend := [⟨0, 1⟩] }.pend[3 % 1]? = some ⟨0, 1⟩ ∧
    { s1Row with pend := [⟨0, 1⟩] }.pend.eraseIdx (3 % 1) = [] ∧
    pixelColour { s1Row with pend := [⟨0, 1⟩] } 0 1 = .ok ⟨0, 0xFF, 0⟩ := by decide

theorem witness_EveryPendingPixelMayComeNext :
    s1Row.status.busy = true ∧ s1Row.cur.isSome = true ∧ engineStuck s1Row = false ∧ refusedBy s1Row = none ∧ ⟨0, 1⟩ ∈ s1Row.pend ∧
    pixelColour s1Row 0 1 = .ok ⟨0, 0xFF, 0⟩ := by decide

theorem witness_DlinDecodesTheRow :
    let s := loaded (BitVec.ofNat 8) (encode (.dlin 199)) (engineTurns 321 5)
    Accepted (encode (.dlin 199)) s ∧ (199 : BitVec 8).toNat < 200 ∧ s.srcLen = 32768 ∧
      (∀ x, x < 320 → Readable s (199 : BitVec 8).toNat x) ∧ EngineMoves 321 s :=
  ⟨loaded_accepted .., by decide, rfl, fun _ hx => loaded_readable _ _ _ (by decide) hx, loaded_moves ..⟩

/-- The same, where the schedule names nothing and the picks are free values. -/
theorem witness_DlinDecodesTheRow_free :
    let s := loaded (BitVec.ofNat 8) (encode (.dlin 0)) []
    Accepted (encode (.dlin 0)) s ∧ (0 : BitVec 8).toNat < 200 ∧ s.srcLen = 32768 ∧
      (∀ x, x < 320 → Readable s (0 : BitVec 8).toNat x) ∧ EngineMoves 321 s :=
  ⟨loaded_accepted .., by decide, rfl, fun _ hx => loaded_readable _ _ _ (by decide) hx, .inl rfl⟩

theorem witness_DfrmDecodesTheFrame :
    let s := loaded (BitVec.ofNat 8) (encode .dfrm) (engineTurns 64001 5)
    Accepted (encode .dfrm) s ∧ s.srcLen = 32768 ∧ (∀ y x, y < 200 → x < 320 → Readable s y x) ∧ EngineMoves 64001 s :=
  ⟨loaded_accepted .., rfl, fun _ _ hy hx => loaded_readable _ _ _ hy hx, loaded_moves ..⟩

/-- Two orders of one frame. -/
theorem witness_PixelOrderDoesNotMatter :
    let s := loaded (BitVec.ofNat 8) (encode .dfrm) (engineTurns 64001 0)
    let u := loaded (BitVec.ofNat 8) (encode .dfrm) (engineTurns 64001 7)
    SameRunBut s u ∧ Raster.wf s.out = true ∧ Accepted (encode .dfrm) s ∧ s.srcLen = 32768 ∧
      (∀ y x, y < 200 → x < 320 → Readable s y x) ∧ EngineMoves 64001 s ∧ EngineMoves 64001 u ∧
      (∃ t : State, Host.Core.run Sys2Proof.core 64001 s = .next t) ∧
      ∃ v : State, Host.Core.run Sys2Proof.core 64001 u = .next v :=
  ⟨loaded_same_run .., rfl, loaded_accepted .., rfl, fun _ _ hy hx => loaded_readable _ _ _ hy hx, loaded_moves .., loaded_moves ..,
    loaded_runs .., loaded_runs ..⟩

/-- Two images that differ in every bitmap byte but row 1's and in every selector but row 1's. -/
def rowOneOnly (v : Byte) (a : Nat) : Byte :=
  if 160 ≤ a ∧ a < 320 ∨ a = 32001 ∨ 32256 ≤ a then BitVec.ofNat 8 a else v

theorem witness_RowsAreIndependent :
    let s := loaded (rowOneOnly 0) (encode .dfrm) (engineTurns 64001 3)
    let u := loaded (rowOneOnly 1) (encode (.dlin 1)) (engineTurns 321 4)
    (1 : BitVec 8).toNat < 200 ∧
      (Accepted (encode .dfrm) s ∧ s.srcLen = 32768 ∧ (∀ y x, y < 200 → x < 320 → Readable s y x) ∧ EngineMoves 64001 s) ∧
      (Accepted (encode (.dlin 1)) u ∧ u.srcLen = 32768 ∧ (∀ x, x < 320 → Readable u (1 : BitVec 8).toNat x) ∧
        EngineMoves 321 u) ∧
      s.config.layout = u.config.layout ∧
      (∀ a, (1 : BitVec 8).toNat * 160 ≤ a ∧ a < (1 : BitVec 8).toNat * 160 + 160 ∨ a = 32000 + (1 : BitVec 8).toNat ∨
        32256 ≤ a ∧ a < 32768 → Cells.read s.src a = Cells.read u.src a) ∧
      (∃ t : State, Host.Core.run Sys2Proof.core 64001 s = .next t) ∧
      ∃ v : State, Host.Core.run Sys2Proof.core 321 u = .next v := by
  refine ⟨by decide, ⟨loaded_accepted .., rfl, fun _ _ hy hx => loaded_readable _ _ _ hy hx, loaded_moves ..⟩,
    ⟨loaded_accepted .., rfl, fun _ hx => loaded_readable _ _ _ (by decide) hx, loaded_moves ..⟩, rfl, fun a ha => ?_,
    loaded_runs .., loaded_runs ..⟩
  have h1 : (1 : BitVec 8).toNat = 1 := rfl
  rw [h1] at ha
  rw [loaded_read _ _ _ (by omega), loaded_read _ _ _ (by omega)]
  simp only [rowOneOnly, if_pos (show 160 ≤ a ∧ a < 320 ∨ a = 32001 ∨ 32256 ≤ a by omega)]

theorem witness_AllZeroImageIsBlack :
    let s := loaded (fun a => if a < 32258 then 0 else 0xFF) (encode .dfrm) (engineTurns 64001 1)
    Accepted (encode .dfrm) s ∧ s.srcLen = 32768 ∧ EngineMoves 64001 s ∧
      (∀ a, a < 32000 → Cells.read s.src a = some 0) ∧ (∀ y, y < 200 → Cells.read s.src (32000 + y) = some 0) ∧
      Cells.read s.src 32256 = some 0 ∧ Cells.read s.src 32257 = some 0 := by
  have h : ∀ a, a < 32258 →
      Cells.read (loaded (fun a => if a < 32258 then 0 else 0xFF) (encode .dfrm) (engineTurns 64001 1)).src a = some 0 :=
    fun a ha => by rw [loaded_read _ _ _ (by omega), if_pos ha]
  exact ⟨loaded_accepted .., rfl, loaded_moves .., fun a ha => h a (by omega), fun y hy => h _ (by omega), h _ (by decide),
    h _ (by decide)⟩

theorem witness_DecodeImageGivesTheRaster :
    let img := (List.range 32768).map (BitVec.ofNat 8)
    let s : State := { State.reset with prog := decodeImage img }
    img.length = 32768 ∧ s.status.busy = false ∧ s.pend = [] ∧ s.faults = [] ∧ s.turns = [] ∧ s.prog = decodeImage img :=
  ⟨(List.length_map _).trans List.length_range, rfl, rfl, rfl, rfl, rfl⟩

/-! ### Invariants -/

/-- S1 in the middle of `DLIN 1`, its first pixel written, with a FAULT record. -/
def s1Busy : State :=
  { accepted (encode (.dlin 1)) s1 with
    pend := (rowPixels 1).tail, out := [(320, ⟨0, 0, 0xFF⟩)], faults := [.hostOutRange 256000] }

theorem witness_StepKeepsTheInvariant : Invariant s1Busy ∧ ∃ t, step s1Busy = .next t := by
  obtain ⟨t, ht, _⟩ := step_of_turn (s := s1Busy) (turn := .engine 0) (ts := []) rfl rfl
  refine ⟨⟨⟨by decide, by decide, by decide, by decide⟩, by decide, .inr ⟨_, .dlin 1, rfl, by decide, ?_⟩, by decide,
    by decide, by decide, by decide⟩, t, ht⟩
  exact List.tail_sublist (rowPixels 1)

/-- A pixel step of DLIN, for the clause about selector entries 200 to 255. -/
theorem witness_SelectorHighBitsAndPaddingHaveNoEffect_pixelStep :
    Invariant s1Busy ∧ 32200 ≤ 32200 ∧ 32255 ≤ 32255 ∧ ∃ t, engineTurn 0 s1Busy = .next t :=
  ⟨witness_StepKeepsTheInvariant.1, by decide, by decide, (engineTurn_effect 0 s1Busy).imp fun _ h => h.1⟩

theorem witness_ConfigReportsTheParameters : ∃ t, step s1Busy = .next t := witness_StepKeepsTheInvariant.2

theorem witness_ReachableStatusIsLegal :
    ({ rLo := .p8, gLo := .p4, bLo := .p0 } : Config.ChanLayout).distinct = true ∧
    ∃ t : State, Host.Core.run Sys2Proof.core 3
      (startState ⟨true, ⟨.p8, .p4, .p0⟩⟩ (runCommand .dfrm) [.host, .engine 0, .host]) = .next t :=
  ⟨by decide, _, rfl⟩

theorem witness_FaultRecordsAreNeverCleared :
    (∃ t, step s1Busy = .next t) ∧ Fault.hostOutRange 256000 ∈ s1Busy.faults :=
  ⟨witness_StepKeepsTheInvariant.2, by decide⟩

end Sys2Proof.Tests
end

section
/-! PROOFS of the statements about the state (10_state.md). First: what a host action can do, and what every step keeps. -/

namespace Sys2Proof.Machine

/-! ## What a host action can do -/

theorem addFault_eq (f : Fault) (s : State) : addFault f s = { s with faults := (addFault f s).faults } := by
  unfold addFault; split <;> rfl

/-- The state a host action stores into: as it was, or with one FAULT record more (R35). -/
inductive Recorded (s : State) : State → Prop where
  | nothing : Recorded s s
  | record (f : Fault) : Recorded s (addFault f s)

/-- The effects of a host action. -/
inductive HostEffect (s : State) : State → Prop where
  /-- Nothing but a record, if that. -/
  | recorded {u : State} (hu : Recorded s u) : HostEffect s u
  /-- A read, which returns data or nothing (R56, R57). -/
  | read {u : State} (hu : Recorded s u) (d : Option HostData) : HostEffect s (setRead d u)
  /-- An admitted SRC write (R53). -/
  | srcWritten {u : State} (hu : Recorded s u) (a : Nat) (v : Byte) (ha : a < Config.srcSize) :
      HostEffect s (srcWrite a v u)
  /-- A SRC_LEN write (R26). -/
  | lengthWritten {u : State} (hu : Recorded s u) (v : Word) : HostEffect s (setSrcLen v u)
  /-- A CMD write while BUSY = 0 (R101). -/
  | accepted (w : Word) (hb : s.status.busy = false) : HostEffect s (acceptCommand w s)
  /-- A CMD write while BUSY = 1 (R102). -/
  | overrun (hb : s.status.busy = true) : HostEffect s (overrunCommand s)
  /-- Reset (R260). -/
  | reset : HostEffect s (resetBlock s)

theorem commandWrite_effect (w : Word) (s : State) : HostEffect s (commandWrite w s) := by
  unfold commandWrite
  split
  · next hb => exact .overrun hb
  · next hb => exact .accepted w (Bool.not_eq_true _ ▸ hb)

theorem srcLenWrite_effect (v : Word) (s : State) : HostEffect s (srcLenWrite v s) := by
  unfold srcLenWrite
  split
  · exact .lengthWritten (.record _) v
  · exact .lengthWritten .nothing v

theorem hostCtrlWrite_effect (offset width : Nat) (v : Word) (s : State) :
    HostEffect s (hostCtrlWrite offset width v s) := by
  unfold hostCtrlWrite ctrlStore
  split
  · split
    · exact commandWrite_effect v s
    · split
      · exact srcLenWrite_effect v s
      · exact .recorded .nothing
  · exact .recorded (.record _)

theorem hostCtrlRead_effect (offset width : Nat) (s : State) : HostEffect s (hostCtrlRead offset width s) := by
  unfold hostCtrlRead
  split
  · exact .read .nothing _
  · exact .read (.record _) _

theorem hostSrcWrite_effect (a : Nat) (v : Byte) (s : State) : HostEffect s (hostSrcWrite a v s) := by
  unfold hostSrcWrite
  split
  · next ha =>
    split
    · exact .srcWritten (.record _) a v ha
    · exact .srcWritten .nothing a v ha
  · exact .recorded (.record _)

theorem hostOutReadPixel_effect (k : Nat) (s : State) : HostEffect s (hostOutReadPixel k s) := by
  unfold hostOutReadPixel
  split
  · split
    · exact .read .nothing _
    · exact .read (.record _) _
  · exact .read (.record _) _

theorem hostOutReadByte_effect (o : Nat) (s : State) : HostEffect s (hostOutReadByte o s) := by
  unfold hostOutReadByte
  split
  · split
    · exact .read .nothing _
    · exact .read (.record _) _
  · exact .read (.record _) _

/-- Every host action has one of these effects. -/
theorem hostAct_effect (a : HostAction) (s : State) : HostEffect s (hostAct a s) := by
  cases a with
  | srcWrite a v => exact hostSrcWrite_effect a v s
  | ctrlWrite offset width v => exact hostCtrlWrite_effect offset width v s
  | ctrlRead offset width => exact hostCtrlRead_effect offset width s
  | outReadPixel k => exact hostOutReadPixel_effect k s
  | outReadByte o => exact hostOutReadByte_effect o s
  | outWrite o v => exact .recorded (.record _)
  | reset => exact .reset
  | wait => exact hostCtrlRead_effect 0x04 32 s

theorem hostAdvance_eq (a : HostAction) (rest : List HostAction) (s : State) :
    hostAdvance a rest s = { s with prog := (hostAdvance a rest s).prog } := by
  unfold hostAdvance; split <;> rfl

/-- A host step has the effect of one host action, but for what is left of the host's program. -/
theorem hostTurn_effect (s : State) : ∃ prog, HostEffect { s with prog := prog } (hostTurn s) := by
  unfold hostTurn
  split
  · exact ⟨s.prog, .recorded .nothing⟩
  · next a rest _ =>
    rw [hostAdvance_eq a rest s]
    exact ⟨_, hostAct_effect a _⟩

/-! ## What every step keeps -/

/-- `P` does not look at the host's program, the schedule or the free choices. -/
def IgnoresAgents (P : State → Prop) : Prop :=
  ∀ s prog turns draws, P s → P { s with prog := prog, turns := turns, draws := draws }

/-- What a host action and an engine turn keep, every step keeps. -/
theorem step_keeps {P : State → Prop} (hrun : IgnoresAgents P)
    (hhost : ∀ s t, HostEffect s t → P s → P t) (hengine : ∀ s t, EngineEffect s t → P s → P t)
    {s t : State} (h : step s = .next t) (hs : P s) : P t := by
  have hsame : ∀ u, SameRunBut s u → P u := by
    rintro u hu
    rw [← hu]
    exact hrun s s.prog u.turns u.draws hs
  cases step_effect h with
  | host u hu =>
    obtain ⟨prog, he⟩ := hostTurn_effect u
    exact hhost _ _ he (hrun u prog u.turns u.draws (hsame u hu))
  | engine u _ hu he => exact hengine _ _ he (hsame u hu)
  | rest => exact hs

/-! ## FAULT only grows (R35) -/

theorem Recorded.mem_faults {s u : State} {f : Fault} (h : Recorded s u) (hf : f ∈ s.faults) : f ∈ u.faults := by
  cases h with
  | nothing => exact hf
  | record => exact faults_subset_addFault hf

theorem HostEffect.mem_faults {s t : State} {f : Fault} (h : HostEffect s t) (hf : f ∈ s.faults) : f ∈ t.faults := by
  cases h with
  | recorded hu => exact hu.mem_faults hf
  | read hu => exact hu.mem_faults hf
  | srcWritten hu => exact hu.mem_faults hf
  | lengthWritten hu => exact hu.mem_faults hf
  | accepted => exact hf
  | overrun => exact hf
  | reset => exact hf

theorem ExecEffect.mem_faults {i : Instr} {s t : State} {f : Fault} (h : ExecEffect i s t) (hf : f ∈ s.faults) :
    f ∈ t.faults := by
  cases h with
  | unwritten => exact faults_subset_addFault hf
  | raised | completed | acknowledged | returned | decodedPixel | pending => exact hf

@[simp] theorem retirePixel_faults (n : Nat) (s : State) : (retirePixel n s).faults = s.faults := by
  unfold retirePixel; split <;> rfl

@[simp] theorem retirePixel_config (n : Nat) (s : State) : (retirePixel n s).config = s.config := by
  unfold retirePixel; split <;> rfl

theorem EngineEffect.mem_faults {s t : State} {f : Fault} (h : EngineEffect s t) (hf : f ∈ s.faults) :
    f ∈ t.faults := by
  cases h with
  | idle | illegal => exact hf
  | first _ _ _ _ _ _ _ he => exact he.mem_faults hf
  | unwritten => exact faults_subset_addFault hf
  | pixel => simpa using hf

/-- Settles O60: by the effects of a step, none of which drops a record. -/
theorem faultRecordsAreNeverCleared : Obligations.FaultRecordsAreNeverCleared := fun _ _ f h hf =>
  step_keeps (P := fun s => f ∈ s.faults) (fun _ _ _ _ hs => hs) (fun _ _ he => he.mem_faults)
    (fun _ _ he => he.mem_faults) h hf

/-! ## STATUS stays legal (R25) -/

theorem Status.reset_legal : Status.reset.Legal :=
  ⟨by decide, by decide, by decide, by decide⟩

theorem Status.accept_legal (st : Status) : st.accept.Legal where
  busy_clears _ := ⟨rfl, rfl⟩
  done_not_err _ := rfl
  err_iff_code := iff_of_true rfl rfl
  code_range := .inl rfl

theorem Status.Legal.overrun {st : Status} (h : st.Legal) : st.overrun.Legal := { h with }

theorem Status.Legal.complete {st : Status} (h : st.Legal) (hb : st.busy = true) : st.complete.Legal :=
  { h with
    busy_clears := fun hf => by simp at hf
    done_not_err := fun _ => (h.busy_clears hb).2 }

theorem Status.Legal.completeAck {st : Status} (h : st.Legal) : st.completeAck.Legal :=
  { h with busy_clears := fun hf => by simp at hf }

theorem ErrCode.code_range (e : ErrCode) : e.code = 1 ∨ e.code = 2 ∨ e.code = 3 := by
  cases e <;> decide

theorem ErrCode.code_ne_zero (e : ErrCode) : e.code ≠ 0 := by
  cases e <;> decide

theorem Status.Legal.raise {st : Status} (h : st.Legal) (hb : st.busy = true) (e : ErrCode) : (st.raise e).Legal where
  busy_clears hf := by simp at hf
  done_not_err hd := absurd ((h.busy_clears hb).1.symm.trans hd) (by decide)
  err_iff_code := iff_of_false (by simp) e.code_ne_zero
  code_range := .inr e.code_range

/-! ## Each operation keeps the invariant -/

section
variable {s : State} (h : Invariant s)
include h

theorem Invariant.addFault (f : Fault) : Invariant (addFault f s) := by
  rw [addFault_eq]
  exact { h with faults_nodup := addFault_nodup h.faults_nodup }

theorem Invariant.recorded {u : State} (hu : Recorded s u) : Invariant u := by
  cases hu with
  | nothing => exact h
  | record f => exact h.addFault f

theorem Invariant.setRead (d : Option HostData) : Invariant (setRead d s) := { h with }

theorem Invariant.setSrcLen (v : Word) : Invariant (setSrcLen v s) := { h with }

theorem Invariant.setResult (v : Word) : Invariant (setResult v s) := { h with }

theorem Invariant.srcWrite {a : Nat} (v : Byte) (ha : a < Config.srcSize) : Invariant (srcWrite a v s) :=
  { h with src_wf := srcWrite_keeps_wf v h.src_wf ha }

theorem Invariant.outWrite {k : Nat} (px : Rgb) (hk : k < Config.npix) : Invariant (outWrite k px s) :=
  { h with out_wf := outWrite_keeps_wf px h.out_wf hk }

theorem Invariant.overrunCommand : Invariant (overrunCommand s) := { h with status_legal := h.status_legal.overrun }

/-- PEND is empty while BUSY = 0 (R32, R64). -/
theorem Invariant.pend_eq_nil (hb : s.status.busy = false) : s.pend = [] := by
  rcases h.pend_legal with hp | ⟨w, i, hc, -, -⟩
  · exact hp
  · have := h.busy_iff_cur.2 (by rw [hc]; rfl)
    rw [hb] at this; cases this

theorem Invariant.busy_of_cur {w : Word} (hc : s.cur = some w) : s.status.busy = true :=
  h.busy_iff_cur.2 (by rw [hc]; rfl)

theorem Invariant.acceptCommand (hb : s.status.busy = false) (w : Word) : Invariant (acceptCommand w s) :=
  { h with
    status_legal := s.status.accept_legal
    busy_iff_cur := iff_of_true rfl rfl
    pend_legal := .inl (h.pend_eq_nil hb) }

/-- However a command ends, it leaves BUSY = 0, no command in CUR and an empty PEND. -/
theorem Invariant.commandOver {st : Status} (hst : st.Legal) (hb : st.busy = false) :
    Invariant { s with pend := [], cur := none, status := st } :=
  { h with
    status_legal := hst
    busy_iff_cur := iff_of_false (by simp [hb]) (by simp)
    pend_legal := .inl rfl }

theorem Invariant.completeCommand (hb : s.status.busy = true) : Invariant (completeCommand s) :=
  h.commandOver (h.status_legal.complete hb) rfl

theorem Invariant.completeAck : Invariant (completeAck s) := h.commandOver h.status_legal.completeAck rfl

theorem Invariant.raiseError (hb : s.status.busy = true) (e : ErrCode) : Invariant (raiseError e s) :=
  h.commandOver (h.status_legal.raise hb e) rfl

theorem Invariant.resetBlock : Invariant (resetBlock s) :=
  { h with
    status_legal := Status.reset_legal
    busy_iff_cur := iff_of_false (by simp [Status.reset]) (by simp)
    pend_legal := .inl rfl
    src_wf := resetBlock_src_wf s
    out_wf := resetBlock_out_wf s }

/-- Positions leave PEND and none comes. -/
theorem Invariant.setPend_sublist {ps : List Pixel} (hps : ps.Sublist s.pend) : Invariant (setPend ps s) :=
  { h with
    pend_legal := by
      rcases h.pend_legal with hp | ⟨w, i, hc, hw, hsub⟩
      · exact .inl (List.sublist_nil.1 (hp ▸ hps))
      · exact .inr ⟨w, i, hc, hw, hps.trans hsub⟩ }

/-- Every pending position is inside the raster (R32, R51). -/
theorem Invariant.pend_in_raster {p : Pixel} (hp : p ∈ s.pend) : p.y < 200 ∧ p.x < 320 := by
  rcases h.pend_legal with hn | ⟨w, i, -, -, hsub⟩
  · simp [hn] at hp
  · exact mem_commandPixels (hsub.subset hp)

theorem Invariant.retirePixel (hb : s.status.busy = true) (n : Nat) : Invariant (retirePixel n s) := by
  by_cases hn : s.pend.eraseIdx n = []
  · rw [retirePixel_last hn]; exact h.completeCommand hb
  · rw [retirePixel_more hn]; exact h.setPend_sublist (s.pend.eraseIdx_sublist n)

end

/-! ## Every step keeps the invariant -/

theorem Invariant.ignoresAgents : IgnoresAgents Invariant := fun _ _ _ _ h => { h with }

theorem HostEffect.keeps_invariant {s t : State} (he : HostEffect s t) (h : Invariant s) : Invariant t := by
  cases he with
  | recorded hu => exact h.recorded hu
  | read hu d => exact (h.recorded hu).setRead d
  | srcWritten hu a v ha => exact (h.recorded hu).srcWrite v ha
  | lengthWritten hu v => exact (h.recorded hu).setSrcLen v
  | accepted w hb => exact h.acceptCommand hb w
  | overrun => exact h.overrunCommand
  | reset => exact h.resetBlock

theorem ExecEffect.keeps_invariant {i : Instr} {s t : State} {w : Word} (he : ExecEffect i s t) (h : Invariant s)
    (hc : s.cur = some w) (hw : decode w = .ok i) : Invariant t := by
  have hb := h.busy_of_cur hc
  cases he with
  | raised e => exact h.raiseError hb e
  | unwritten a => exact h.addFault _
  | completed => exact h.completeCommand hb
  | acknowledged => exact h.completeAck
  | returned v => exact (h.setResult v).completeCommand hb
  | decodedPixel k px hk => exact ((h.outWrite px hk).setResult _).completeCommand hb
  | pending => exact { h with pend_legal := .inr ⟨w, i, hc, hw, List.Sublist.refl _⟩ }

theorem EngineEffect.keeps_invariant {s t : State} (he : EngineEffect s t) (h : Invariant s) : Invariant t := by
  cases he with
  | idle => exact h
  | illegal w r hc => exact h.raiseError (h.busy_of_cur hc) _
  | first w i _ hc hw _ _ hx => exact hx.keeps_invariant h hc hw
  | unwritten a => exact h.addFault _
  | pixel n p px he hn _ =>
    obtain ⟨hy, hx⟩ := h.pend_in_raster (List.mem_of_getElem? hn)
    exact (h.outWrite px (pixelNumber_lt hy hx)).retirePixel (engineEnabled_iff.1 he).1 n

/-- Settles O58: by the effects of a step, each of which is made of operations that keep the invariant. -/
theorem stepKeepsTheInvariant : Obligations.StepKeepsTheInvariant := fun _ _ h hst =>
  step_keeps Invariant.ignoresAgents (fun _ _ he => he.keeps_invariant) (fun _ _ he => he.keeps_invariant) hst h

theorem reset_invariant : Invariant State.reset where
  status_legal := Status.reset_legal
  busy_iff_cur := iff_of_false (by decide) (by decide)
  pend_legal := .inl rfl
  src_wf := reset_src_wf
  out_wf := reset_out_wf
  layout_distinct := by decide
  faults_nodup := List.nodup_nil

/-- Settles O57. -/
theorem resetMeetsTheInvariant : Obligations.ResetMeetsTheInvariant := reset_invariant

/-! ## Reachable states -/

theorem startState_invariant {c : Config.Params} (hc : c.layout.distinct = true) (prog : List HostAction)
    (turns : List Turn) : Invariant (startState c prog turns) :=
  { reset_invariant with layout_distinct := hc }

theorem Status.Legal.errCode_le {st : Status} (h : st.Legal) : st.errCode.toNat ≤ 3 := by
  rcases h.code_range with hc | hc | hc | hc <;> rw [hc] <;> decide

/-- Settles O59: the invariant holds at the start of every run, every step keeps it, and it implies what R25 says. -/
theorem reachableStatusIsLegal : Obligations.ReachableStatusIsLegal := by
  intro c prog turns n t hc hrun
  have h : Invariant t := run_keeps stepKeepsTheInvariant n (startState_invariant hc prog turns) hrun
  have hst := h.status_legal
  exact ⟨hst.busy_clears, hst.done_not_err, hst.err_iff_code, hst.errCode_le,
    h.busy_iff_cur.trans Option.isSome_iff_ne_none, h.pend_eq_nil⟩

end Sys2Proof.Machine
end

section
/-! PROOFS of the statements about the registers, reset, and which agent moves (10_state.md). -/

namespace Sys2Proof.Machine

/-! ## The fields of STATUS (R24) -/

/-- Settles O10: each bit of the word is a bit of one field. -/
theorem statusWordHoldsItsFields : Obligations.StatusWordHoldsItsFields := by
  intro st
  simp only [Status.word, bitAt, nibbleAt]
  refine ⟨by simp, by simp, by simp, by simp, ?errCode, ?zeros⟩
  case errCode => ext i hi; interval_cases i <;> simp
  case zeros => ext i hi; interval_cases i <;> simp

/-! ## The fields of CONFIG (R28) -/

/-- A channel position over 4, as the two bits that CONFIG has for it. -/
def posCode (p : Config.NibblePos) : BitVec 2 := BitVec.ofNat 2 (p.bit / 4)

theorem posField_eq (p : Config.NibblePos) : posField p = (posCode p).setWidth 32 := by
  cases p <;> rfl

theorem posCode_toNat (p : Config.NibblePos) : (posCode p).toNat = p.bit / 4 := by
  cases p <;> rfl

theorem configWord_outAlpha (c : Config.Params) : (configWord c).getLsbD 0 = c.outAlpha := by
  simp [configWord, bitAt]

theorem configWord_rLo (c : Config.Params) : (configWord c).extractLsb' 4 2 = posCode c.layout.rLo := by
  simp only [configWord, bitAt, posField_eq]
  ext i hi; interval_cases i <;> simp

theorem configWord_gLo (c : Config.Params) : (configWord c).extractLsb' 6 2 = posCode c.layout.gLo := by
  simp only [configWord, bitAt, posField_eq]
  ext i hi; interval_cases i <;> simp

theorem configWord_bLo (c : Config.Params) : (configWord c).extractLsb' 8 2 = posCode c.layout.bLo := by
  simp only [configWord, bitAt, posField_eq]
  ext i hi; interval_cases i <;> simp

theorem configWord_zeros_low (c : Config.Params) : (configWord c).extractLsb' 1 3 = 0 := by
  simp only [configWord, bitAt, posField_eq]
  ext i hi; interval_cases i <;> simp

theorem configWord_zeros_high (c : Config.Params) : (configWord c).extractLsb' 10 22 = 0 := by
  simp only [configWord, bitAt, posField_eq]
  ext i hi; interval_cases i <;> simp

/-! ## CONFIG is constant (R28) -/

theorem Recorded.config_eq {s u : State} (h : Recorded s u) : u.config = s.config := by
  cases h with
  | nothing => rfl
  | record f => exact addFault_config s f

theorem HostEffect.config_eq {s t : State} (h : HostEffect s t) : t.config = s.config := by
  cases h with
  | recorded hu => exact hu.config_eq
  | read hu => exact hu.config_eq
  | srcWritten hu => exact hu.config_eq
  | lengthWritten hu => exact hu.config_eq
  | accepted | overrun | reset => rfl

theorem ExecEffect.config_eq {i : Instr} {s t : State} (h : ExecEffect i s t) : t.config = s.config := by
  cases h with
  | unwritten a => exact addFault_config s _
  | raised | completed | acknowledged | returned | decodedPixel | pending => rfl

theorem EngineEffect.config_eq {s t : State} (h : EngineEffect s t) : t.config = s.config := by
  cases h with
  | idle | illegal => rfl
  | first _ _ _ _ _ _ _ hx => exact hx.config_eq
  | unwritten a => exact addFault_config s _
  | pixel n => exact retirePixel_config n _

theorem step_config {s t : State} (h : step s = .next t) : t.config = s.config :=
  step_keeps (P := fun u => u.config = s.config) (fun _ _ _ _ hs => hs) (fun _ _ he => he.config_eq.trans)
    (fun _ _ he => he.config_eq.trans) h rfl

/-! ## Control accesses (R22, R57) -/

theorem ctrlAdmitted_iff {offset width : Nat} :
    ctrlAdmitted offset width = true ↔ width = 32 ∧ offset % 4 = 0 ∧ offset < 0x100 := by
  simp [ctrlAdmitted, and_assoc]

/-- An admitted read returns the register's value and changes nothing else (R57, R62). -/
theorem hostAct_ctrlRead {offset : Nat} (s : State) (h4 : offset % 4 = 0) (hlt : offset < 0x100) :
    hostAct (.ctrlRead offset 32) s = { s with readData := some (.word (ctrlValue s offset)) } :=
  if_pos (ctrlAdmitted_iff.2 ⟨rfl, h4, hlt⟩)

theorem hostAct_ctrlWrite {offset : Nat} (v : Word) (s : State) (h4 : offset % 4 = 0) (hlt : offset < 0x100) :
    hostAct (.ctrlWrite offset 32 v) s = ctrlStore offset v s :=
  if_pos (ctrlAdmitted_iff.2 ⟨rfl, h4, hlt⟩)

/-- Only CMD and SRC_LEN are writable (R22). -/
theorem ctrlStore_readOnly {offset : Nat} (v : Word) (s : State) (h0 : offset ≠ 0x00) (h8 : offset ≠ 0x08) :
    ctrlStore offset v s = s := by
  rw [ctrlStore, if_neg h0, if_neg h8]

/-- A write of a read-only or reserved register has no effect (R22, R29). -/
theorem hostAct_ctrlWrite_readOnly {offset : Nat} (v : Word) (s : State) (h4 : offset % 4 = 0) (hlt : offset < 0x100)
    (h0 : offset ≠ 0x00) (h8 : offset ≠ 0x08) : hostAct (.ctrlWrite offset 32 v) s = s :=
  (hostAct_ctrlWrite v s h4 hlt).trans (ctrlStore_readOnly v s h0 h8)

/-- A reserved offset reads 0 (R29). -/
theorem ctrlValue_reserved {offset : Nat} (s : State) (h : 0x14 ≤ offset) : ctrlValue s offset = 0 := by
  rw [ctrlValue, if_neg (by omega), if_neg (by omega), if_neg (by omega), if_neg (by omega)]

/-- SRC_LEN takes all 32 bits of a write while BUSY = 0 (R26). -/
theorem hostAct_srcLenWrite_idle {s : State} (v : Word) (hb : s.status.busy = false) :
    hostAct (.ctrlWrite 0x08 32 v) s = { s with srcLen := v } := by
  have hidle : srcLenWrite v s = setSrcLen v s := if_neg (by simp [hb])
  exact (hostAct_ctrlWrite v s rfl (by decide)).trans hidle

/-- Settles O11: field by field; and by the effects of a step, none of which touches CONFIG. -/
theorem configReportsTheParameters : Obligations.ConfigReportsTheParameters := by
  refine ⟨fun c => ⟨configWord_outAlpha c, configWord_zeros_low c, ?_, ?_, ?_, configWord_zeros_high c⟩, by decide,
    fun s v => hostAct_ctrlWrite_readOnly v s rfl (by decide) (by decide) (by decide), fun _ _ => step_config⟩
  · rw [configWord_rLo, posCode_toNat]
  · rw [configWord_gLo, posCode_toNat]
  · rw [configWord_bLo, posCode_toNat]

/-- Settles O12: each offset is admitted, and the register map gives its value and whether it is writable. -/
theorem controlRegistersReadAndWrite : Obligations.ControlRegistersReadAndWrite := by
  intro s v
  refine ⟨hostAct_ctrlRead s rfl (by decide), hostAct_ctrlRead s rfl (by decide), hostAct_ctrlRead s rfl (by decide),
    hostAct_ctrlRead s rfl (by decide), hostAct_ctrlRead s rfl (by decide),
    hostAct_ctrlWrite_readOnly v s rfl (by decide) (by decide) (by decide),
    hostAct_ctrlWrite_readOnly v s rfl (by decide) (by decide) (by decide),
    hostAct_ctrlWrite_readOnly v s rfl (by decide) (by decide) (by decide), fun hb => ?_⟩
  have hw := hostAct_srcLenWrite_idle v hb
  exact ⟨hw, by rw [hw]; rfl⟩

/-- Settles O13: a reserved offset is none of the registers. -/
theorem reservedOffsetsAreInert : Obligations.ReservedOffsetsAreInert := by
  intro s offset v hlo hhi h4
  constructor
  · rw [hostAct_ctrlRead s h4 (by omega), ctrlValue_reserved s hlo]
  · exact hostAct_ctrlWrite_readOnly v s h4 (by omega) (by omega) (by omega)

/-! ## Reset (R36) -/

/-- Settles O8: the reset state is the table of R36, and the reset action keeps CONFIG and FAULT. -/
theorem resetLeavesTheSpecState : Obligations.ResetLeavesTheSpecState :=
  ⟨rfl, by decide, rfl, rfl, rfl, rfl, rfl, Cells.read_nil, Cells.read_nil, fun s =>
    ⟨resetBlock_config s, resetBlock_faults s⟩⟩

/-! ## Which agent moves (R20) -/

/-- A host turn that the schedule names. -/
theorem step_of_host_turn {s : State} {ts : List Turn} (hf : refusedBy s = none) (ht : s.turns = .host :: ts) :
    step s = .next (hostTurn { s with turns := ts }) := by
  rw [step_eq_scheduled hf, scheduledStep, ht]

/-- Once the schedule is used up, the host moves where the engine has no step. -/
theorem step_of_host_free {s : State} (hf : refusedBy s = none) (ht : s.turns = []) (he : engineEnabled s = false)
    (hp : s.prog ≠ []) : step s = .next (hostTurn s) := by
  have hne : s.prog.isEmpty = false := by simpa using hp
  simp [step_eq_scheduled hf, scheduledStep, ht, he, hne]

/-- A host turn performs the next action; only WAIT stays, while BUSY = 1 (R84). -/
theorem hostTurn_of_prog {s : State} {a : HostAction} {rest : List HostAction} (hp : s.prog = a :: rest) :
    hostTurn s = hostAct a { s with prog := if a = .wait ∧ s.status.busy = true then a :: rest else rest } := by
  simp only [hostTurn, hp, hostAdvance]
  split
  · rw [← hp]
  · rfl

/-- Settles O22: the step is the host's turn, and the turn is the program's next action. -/
theorem hostStepRunsTheNextAction : Obligations.HostStepRunsTheNextAction := by
  intro s a rest hf hp
  constructor
  · intro ts ht
    exact (step_of_host_turn hf ht).trans (congrArg _ (hostTurn_of_prog (s := { s with turns := ts }) hp))
  · intro ht hb
    rw [step_of_host_free hf ht (engineEnabled_of_idle hb) (by simp [hp]), hostTurn_of_prog hp, if_neg (by simp [hb])]

/-- Settles O24: the engine is not enabled, so its turn leaves the state as it is. -/
theorem engineHasNoStepWhenIdleOrStuck : Obligations.EngineHasNoStepWhenIdleOrStuck := by
  intro s pick ts hf ht hidle
  have he : engineEnabled { s with turns := ts } = false := by
    rcases hidle with hb | ⟨a, ha⟩
    · exact engineEnabled_of_idle hb
    · exact engineEnabled_of_stuck ha
  rw [step_of_engine_turn hf ht, engineTurn_of_disabled he]

end Sys2Proof.Machine
end

section
/-! PROOFS of the statements about the memories and who may access them (20_memory.md). -/

namespace Sys2Proof.Machine

/-! ## Refused host accesses

An access that breaks a rule ends in one of two states: the old one with a record added, or that state with nothing read. -/

/-- Adding a record adds just that record, and changes nothing else (R35). -/
theorem only_record_added {s t : State} {f : Fault} (h : t = addFault f s) :
    (∀ g, g ∈ t.faults ↔ g ∈ s.faults ∨ g = f) ∧ t = { s with faults := t.faults } := by
  subst h
  exact ⟨fun _ => mem_addFault_iff, addFault_eq f s⟩

/-- A refused read adds just its record, returns nothing, and changes nothing else. -/
theorem only_record_added_by_read {s t : State} {f : Fault} (h : t = setRead none (addFault f s)) :
    (∀ g, g ∈ t.faults ↔ g ∈ s.faults ∨ g = f) ∧ t = { s with readData := none, faults := t.faults } := by
  subst h
  exact ⟨fun _ => mem_addFault_iff, congrArg (setRead none) (addFault_eq f s)⟩

/-! ## The control window (R59) -/

theorem ctrlAdmitted_eq_false {offset width : Nat} (h : width ≠ 32 ∨ offset % 4 ≠ 0 ∨ 0x100 ≤ offset) :
    ctrlAdmitted offset width = false := by
  rw [← Bool.not_eq_true, ctrlAdmitted_iff]
  omega

/-- Settles O14: the access is not admitted, so only its record is added. -/
theorem badControlAccessIsRefused : Obligations.BadControlAccessIsRefused := by
  intro s offset width v h
  have hbad : ¬ ctrlAdmitted offset width = true := by simp [ctrlAdmitted_eq_false h]
  have hread : hostAct (.ctrlRead offset width) s = setRead none (addFault (.hostCtrlAccess offset width) s) :=
    if_neg hbad
  have hwrite : hostAct (.ctrlWrite offset width v) s = addFault (.hostCtrlAccess offset width) s := if_neg hbad
  obtain ⟨hreadFaults, hreadRest⟩ := only_record_added_by_read hread
  obtain ⟨hwriteFaults, hwriteRest⟩ := only_record_added hwrite
  exact ⟨hreadFaults, hreadRest, hwriteFaults, hwriteRest⟩

/-! ## Host writes of SRC (R53) -/

theorem hostAct_srcWrite_idle {s : State} {a : Nat} (v : Byte) (ha : a < Config.srcSize) (hb : s.status.busy = false) :
    hostAct (.srcWrite a v) s = srcWrite a v s := by
  simp [hostAct, hostSrcWrite, ha, hb]

theorem hostAct_srcWrite_beyond {a : Nat} (v : Byte) (s : State) (ha : Config.srcSize ≤ a) :
    hostAct (.srcWrite a v) s = addFault (.hostSrcRange a) s :=
  if_neg (Nat.not_lt.2 ha)

/-- Write a list of values to consecutive cells, from cell `a` on: what `srcWrites` does to SRC, by
`foldl_srcWrites`. -/
def Cells.writeFrom {α : Type} (m : Cells α) (a : Nat) : List α → Cells α
  | [] => m
  | v :: vs => Cells.writeFrom (Cells.write m a v) (a + 1) vs

theorem Cells.read_writeFrom_outside {α : Type} (m : Cells α) (a : Nat) (vs : List α) {b : Nat}
    (hb : b < a ∨ a + vs.length ≤ b) : Cells.read (Cells.writeFrom m a vs) b = Cells.read m b := by
  induction vs generalizing m a with
  | nil => rfl
  | cons v vs ih =>
    rw [List.length_cons] at hb
    rw [Cells.writeFrom, ih _ _ (by omega), Cells.read_write_other m v (by omega)]

theorem Cells.read_writeFrom_inside {α : Type} (m : Cells α) (a : Nat) (vs : List α) {i : Nat} (hi : i < vs.length) :
    Cells.read (Cells.writeFrom m a vs) (a + i) = vs[i]? := by
  induction vs generalizing m a i with
  | nil => simp at hi
  | cons v vs ih =>
    cases i with
    | zero =>
      exact (Cells.read_writeFrom_outside (Cells.write m a v) (a + 1) vs (.inl (Nat.lt_succ_self a))).trans
        (Cells.read_write_same m a v)
    | succ i =>
      rw [List.length_cons] at hi
      rw [Cells.writeFrom, show a + (i + 1) = a + 1 + i by omega, ih _ _ (by omega), List.getElem?_cons_succ]

/-- The host's write of a list of bytes that fits, while BUSY = 0: they stand in SRC, and nothing else changes. -/
theorem foldl_srcWrites (vs : List Byte) {s : State} {a : Nat} (ha : a + vs.length ≤ Config.srcSize)
    (hb : s.status.busy = false) :
    (srcWrites a vs).foldl (fun u act => hostAct act u) s = { s with src := Cells.writeFrom s.src a vs } := by
  induction vs generalizing s a with
  | nil => rfl
  | cons v vs ih =>
    rw [List.length_cons] at ha
    rw [srcWrites, List.foldl_cons, hostAct_srcWrite_idle v (Nat.lt_of_lt_of_le (by omega) ha) hb]
    exact ih (s := srcWrite a v s) (by omega) hb

@[simp] theorem length_bytesLE (n w : Nat) : (bytesLE n w).length = n := by simp [bytesLE]

/-- Byte `i` of a value, least significant first (R53). -/
theorem getElem?_bytesLE {n i : Nat} (w : Nat) (hi : i < n) :
    (bytesLE n w)[i]? = some (BitVec.ofNat 8 (w / 2 ^ (8 * i))) := by
  simp [bytesLE, hi]

/-- Settles O16: one write is one cell or one record; the writes of a value are its bytes, written from `a` on. -/
theorem hostSrcWritesAreByteWise : Obligations.HostSrcWritesAreByteWise := by
  refine ⟨fun s a v => ⟨fun ha hb => ?below, fun ha => only_record_added (hostAct_srcWrite_beyond v s ha)⟩, ?value⟩
  case below =>
    rw [hostAct_srcWrite_idle v ha hb]
    exact ⟨Cells.read_write_same s.src a v, fun b hne => Cells.read_write_other s.src v hne, rfl⟩
  case value =>
    intro s a n w han hb
    rw [srcWriteValue, foldl_srcWrites _ (by simpa using han) hb]
    refine ⟨fun i hi => ?_, fun b hout => ?_, rfl⟩
    · dsimp only
      rw [Cells.read_writeFrom_inside _ _ _ (by simpa using hi), getElem?_bytesLE w hi]
      simp
    · exact Cells.read_writeFrom_outside _ _ _ (by simpa using hout)

/-! ## Host reads of OUT (R55, R56) -/

theorem bytesPerPixel_pos (c : Config.Params) : 0 < bytesPerPixel c := by
  unfold bytesPerPixel; split <;> decide

section
variable {s : State} {k : Nat}

theorem hostAct_outReadPixel_written {px : Rgb} (hk : k < Config.npix) (h : Cells.read s.out k = some px) :
    hostAct (.outReadPixel k) s = { s with readData := some (.pixel (pixelBytes s.config px)) } := by
  rw [hostAct, hostOutReadPixel, if_pos hk, h]
  rfl

theorem hostAct_outReadPixel_unwritten (hk : k < Config.npix) (h : Cells.read s.out k = none) :
    hostAct (.outReadPixel k) s = setRead none (addFault (.unwrittenOut k) s) := by
  rw [hostAct, hostOutReadPixel, if_pos hk, h]

theorem hostAct_outReadPixel_beyond (hk : Config.npix ≤ k) :
    hostAct (.outReadPixel k) s = setRead none (addFault (.hostOutRange (k * bytesPerPixel s.config)) s) :=
  if_neg (Nat.not_lt.2 hk)

/-- Byte `j` of a written cell `k`, at its offset in the byte image. -/
theorem hostAct_outReadByte_written {px : Rgb} {j : Nat} (hk : k < Config.npix) (hj : j < bytesPerPixel s.config)
    (h : Cells.read s.out k = some px) :
    hostAct (.outReadByte (k * bytesPerPixel s.config + j)) s =
      { s with readData := ((pixelBytes s.config px)[j]?).map .byte } := by
  have hin : k * bytesPerPixel s.config + j < Config.npix * bytesPerPixel s.config :=
    calc k * bytesPerPixel s.config + j < (k + 1) * bytesPerPixel s.config := by rw [Nat.succ_mul]; omega
      _ ≤ Config.npix * bytesPerPixel s.config := Nat.mul_le_mul_right _ hk
  have hcell : (k * bytesPerPixel s.config + j) / bytesPerPixel s.config = k := by
    rw [Nat.mul_comm, Nat.mul_add_div (bytesPerPixel_pos _), Nat.div_eq_of_lt hj, Nat.add_zero]
  have hbyte : (k * bytesPerPixel s.config + j) % bytesPerPixel s.config = j := by
    rw [Nat.mul_comm, Nat.mul_add_mod, Nat.mod_eq_of_lt hj]
  rw [hostAct, hostOutReadByte, if_pos hin, hcell, hbyte, h]
  rfl

theorem hostAct_outReadByte_unwritten {o : Nat} (ho : o < Config.npix * bytesPerPixel s.config)
    (h : Cells.read s.out (o / bytesPerPixel s.config) = none) :
    hostAct (.outReadByte o) s = setRead none (addFault (.unwrittenOut (o / bytesPerPixel s.config)) s) := by
  rw [hostAct, hostOutReadByte, if_pos ho, h]

theorem hostAct_outReadByte_beyond {o : Nat} (ho : Config.npix * bytesPerPixel s.config ≤ o) :
    hostAct (.outReadByte o) s = setRead none (addFault (.hostOutRange o) s) :=
  if_neg (Nat.not_lt.2 ho)

end

/-- Settles O18: each read returns its part of the cell's bytes, which are 4 or 3 as OUT_ALPHA says. -/
theorem outReadsReturnTheByteImage : Obligations.OutReadsReturnTheByteImage := by
  intro s k px hk h
  have hpixel := hostAct_outReadPixel_written hk h
  have hbyte := fun j hj => hostAct_outReadByte_written (s := s) (j := j) hk hj h
  constructor
  · intro halpha
    have hbpp : bytesPerPixel s.config = 4 := by simp [bytesPerPixel, halpha]
    have hbytes : pixelBytes s.config px = [px.r, px.g, px.b, 0xFF] := by simp [pixelBytes, halpha]
    rw [hbytes] at hpixel
    rw [hbpp, hbytes] at hbyte
    exact ⟨hpixel, hbyte 0 (by decide), hbyte 1 (by decide), hbyte 2 (by decide), hbyte 3 (by decide)⟩
  · intro halpha
    have hbpp : bytesPerPixel s.config = 3 := by simp [bytesPerPixel, halpha]
    have hbytes : pixelBytes s.config px = [px.r, px.g, px.b] := by simp [pixelBytes, halpha]
    rw [hbytes] at hpixel
    rw [hbpp, hbytes] at hbyte
    exact ⟨hpixel, hbyte 0 (by decide), hbyte 1 (by decide), hbyte 2 (by decide)⟩

/-- Settles O19: every bad access is a refused one, with its own record. -/
theorem badOutAccessIsRefused : Obligations.BadOutAccessIsRefused := fun _ _ _ =>
  ⟨fun ho h => only_record_added_by_read (hostAct_outReadByte_unwritten ho h),
    fun ho => only_record_added_by_read (hostAct_outReadByte_beyond ho),
    fun hk h => only_record_added_by_read (hostAct_outReadPixel_unwritten hk h),
    fun hk => only_record_added_by_read (hostAct_outReadPixel_beyond hk),
    only_record_added rfl⟩

/-! ## The engine's addresses (R51) -/

theorem paletteIndex_lt (p c : Nibble) : paletteIndex p c < 256 := by
  have hp := p.isLt
  have hc := c.isLt
  unfold paletteIndex
  omega

theorem paletteLoAddr_eq (p c : Nibble) : paletteLoAddr p c = 32256 + 2 * paletteIndex p c := rfl

/-- Palette words start at even addresses, and the last one ends with SRC (R51, R60). -/
theorem paletteAddrs_in_range (p c : Nibble) :
    (32256 ≤ paletteLoAddr p c ∧ paletteLoAddr p c % 2 = 0) ∧ paletteHiAddr p c ≤ 32767 := by
  have hk := paletteIndex_lt p c
  rw [paletteHiAddr, paletteLoAddr_eq]
  omega

theorem scbAddr_in_range {y : Nat} (hy : y < 200) : 32000 ≤ scbAddr y ∧ scbAddr y ≤ 32199 := by
  simp only [scbAddr, Config.scbBase]
  omega

theorem byteIndex_le {y x : Nat} (hy : y < 200) (hx : x < 320) : byteIndex y x ≤ 31999 := by
  simp only [byteIndex, Config.rowBytes]
  omega

/-- Settles O44. -/
theorem engineAddressesAreInRange : Obligations.EngineAddressesAreInRange := by
  intro y x p c hy hx
  obtain ⟨hlo, hhi⟩ := paletteAddrs_in_range p c
  exact ⟨scbAddr_in_range hy, byteIndex_le hy hx, hlo, rfl, hhi, pixelNumber_lt hy hx⟩

/-! ## One writer per memory (R68) -/

@[simp] theorem retirePixel_src (n : Nat) (s : State) : (retirePixel n s).src = s.src := by
  unfold retirePixel; split <;> rfl

@[simp] theorem retirePixel_srcLen (n : Nat) (s : State) : (retirePixel n s).srcLen = s.srcLen := by
  unfold retirePixel; split <;> rfl

theorem ExecEffect.keeps_src {i : Instr} {s t : State} (h : ExecEffect i s t) :
    t.src = s.src ∧ t.srcLen = s.srcLen := by
  cases h with
  | unwritten a => exact ⟨addFault_src s _, addFault_srcLen s _⟩
  | raised | completed | acknowledged | returned | decodedPixel | pending => exact ⟨rfl, rfl⟩

theorem EngineEffect.keeps_src {s t : State} (h : EngineEffect s t) : t.src = s.src ∧ t.srcLen = s.srcLen := by
  cases h with
  | idle | illegal => exact ⟨rfl, rfl⟩
  | first _ _ _ _ _ _ _ hx => exact hx.keeps_src
  | unwritten a => exact ⟨addFault_src s _, addFault_srcLen s _⟩
  | pixel n => exact ⟨retirePixel_src n _, retirePixel_srcLen n _⟩

/-- What the engine alone writes, OUT and RESULT, is in `t` as it is in `s` (R68). -/
def KeepsProducts (s t : State) : Prop := t.out = s.out ∧ t.result = s.result

theorem addFault_keepsProducts (f : Fault) (s : State) : KeepsProducts s (addFault f s) :=
  ⟨addFault_out s f, addFault_result s f⟩

theorem KeepsProducts.ite {s t u : State} {c : Prop} [Decidable c] (ht : KeepsProducts s t) (hu : KeepsProducts s u) :
    KeepsProducts s (if c then t else u) := by
  split
  · exact ht
  · exact hu

theorem commandWrite_keepsProducts (w : Word) (s : State) : KeepsProducts s (commandWrite w s) :=
  .ite ⟨rfl, rfl⟩ ⟨rfl, rfl⟩

theorem srcLenWrite_keepsProducts (v : Word) (s : State) : KeepsProducts s (srcLenWrite v s) :=
  .ite (addFault_keepsProducts (.hostHazard .srcLen) s) ⟨rfl, rfl⟩

theorem ctrlStore_keepsProducts (offset : Nat) (v : Word) (s : State) : KeepsProducts s (ctrlStore offset v s) :=
  .ite (commandWrite_keepsProducts v s) (.ite (srcLenWrite_keepsProducts v s) ⟨rfl, rfl⟩)

theorem hostCtrlRead_keepsProducts (offset width : Nat) (s : State) :
    KeepsProducts s (hostCtrlRead offset width s) :=
  .ite ⟨rfl, rfl⟩ (addFault_keepsProducts (.hostCtrlAccess offset width) s)

/-- No host action but reset touches OUT or RESULT: each stores elsewhere, or adds a record. -/
theorem hostAct_keepsProducts {a : HostAction} (s : State) (ha : a ≠ .reset) : KeepsProducts s (hostAct a s) := by
  cases a with
  | srcWrite a v =>
    exact .ite (.ite (addFault_keepsProducts (.hostHazard (.src a)) s) ⟨rfl, rfl⟩) (addFault_keepsProducts _ s)
  | ctrlWrite offset width v => exact .ite (ctrlStore_keepsProducts offset v s) (addFault_keepsProducts _ s)
  | ctrlRead offset width => exact hostCtrlRead_keepsProducts offset width s
  | outReadPixel k =>
    refine .ite ?_ (addFault_keepsProducts (.hostOutRange _) s)
    split
    · exact ⟨rfl, rfl⟩
    · exact addFault_keepsProducts (.unwrittenOut k) s
  | outReadByte o =>
    refine .ite ?_ (addFault_keepsProducts (.hostOutRange o) s)
    split
    · exact ⟨rfl, rfl⟩
    · exact addFault_keepsProducts (.unwrittenOut _) s
  | outWrite o v => exact addFault_keepsProducts _ s
  | reset => exact absurd rfl ha
  | wait => exact hostCtrlRead_keepsProducts 0x04 32 s

/-- Settles O20: by the effects of an engine turn, and by the host's actions but reset. -/
theorem eachMemoryHasOneWriter : Obligations.EachMemoryHasOneWriter := by
  constructor
  · intro s t pick h
    obtain ⟨u, hu, he⟩ := engineTurn_effect pick s
    obtain rfl : u = t := by simpa [hu] using h
    obtain ⟨hsrc, hlen⟩ := he.keeps_src
    exact ⟨fun a => by rw [hsrc], hlen, he.config_eq⟩
  · intro s a ha
    obtain ⟨hout, hresult⟩ := hostAct_keepsProducts s ha
    exact ⟨fun k => by rw [hout], hresult⟩

/-! ## Reading an unwritten byte (R52) -/

/-- Settles O39: the pixel step adds the record of the byte it cannot read, and the record disables the engine. -/
theorem unwrittenSrcStopsTheEngine : Obligations.UnwrittenSrcStopsTheEngine := by
  intro s p f pick ts hbusy hcur hstuck hf ht hp hread
  obtain ⟨a, rfl, ha⟩ := pixelColour_error hread
  have hstep : step s = .next (addFault (.unwrittenSrc a) { s with turns := ts }) := by
    rw [step_pixel hbusy hcur hstuck hf ht hp, hread, withRead_error]
  obtain ⟨hfaults, hrest⟩ := only_record_added (rfl : addFault (.unwrittenSrc a) { s with turns := ts } = _)
  exact ⟨a, _, rfl, ha, hstep, hrest, hfaults,
    engineTurn_of_disabled (engineEnabled_of_stuck (mem_addFault_faults _ _))⟩

end Sys2Proof.Machine
end

section
/-! PROOFS of the statements about the command words (30_encoding.md, sections 1 and 2): decoding, encoding and illegal
words. -/

namespace Sys2Proof

open Machine

/-! ## The row of a command -/

/-- The place of a command's row in the opcode map. -/
def Instr.rowNumber : Instr → Fin 10
  | .nop => 0
  | .valid => 1
  | .rscb _ => 2
  | .unpk _ _ => 3
  | .pfet _ _ => 4
  | .asmb _ => 5
  | .dpix _ _ => 6
  | .dlin _ => 7
  | .dfrm => 8
  | .ack => 9

/-- A command's row of the opcode map (R78). -/
def Instr.row (i : Instr) : OpcodeRow := opcodeRows.get i.rowNumber

theorem Instr.row_mem (i : Instr) : i.row ∈ opcodeRows := List.get_mem opcodeRows i.rowNumber

/-- The command that a row builds is of that row. -/
theorem row_build {r : OpcodeRow} (hr : r ∈ opcodeRows) (w : Word) : (r.build w).row = r := by
  simp only [opcodeRows, List.mem_cons, List.not_mem_nil, or_false] at hr
  rcases hr with rfl | rfl | rfl | rfl | rfl | rfl | rfl | rfl | rfl | rfl <;> rfl

/-- A row's match is its opcode with zeros above (R78). -/
theorem row_pattern {r : OpcodeRow} (hr : r ∈ opcodeRows) : r.pattern = r.op.setWidth 32 := by
  simp only [opcodeRows, List.mem_cons, List.not_mem_nil, or_false] at hr
  rcases hr with rfl | rfl | rfl | rfl | rfl | rfl | rfl | rfl | rfl | rfl <;> rfl

/-- A word decodes to a command exactly when it matches the command's row and its fields are the command's operands. -/
theorem decode_eq_ok_iff {w : Word} {i : Instr} :
    decode w = .ok i ↔ w &&& i.row.mask = i.row.pattern ∧ i.row.build w = i := by
  constructor
  · intro h
    obtain ⟨r, hr, -, hm, rfl⟩ := row_of_decode h
    rw [row_build hr]
    exact ⟨hm, rfl⟩
  · rintro ⟨hm, hb⟩
    rw [decode_row i.row_mem hm, hb]

/-! ## The two round trips (R82) -/

theorem encode_matches_row (i : Instr) : encode i &&& i.row.mask = i.row.pattern := by
  cases i with
  | nop => exact Laws.TableRow.nop
  | valid => exact Laws.TableRow.valid
  | rscb y => exact Laws.TableRow.rscb y
  | unpk y x => exact Laws.TableRow.unpk y x
  | pfet p c => exact Laws.TableRow.pfet p c
  | asmb e => exact Laws.TableRow.asmb e
  | dpix y x => exact Laws.TableRow.dpix y x
  | dlin y => exact Laws.TableRow.dlin y
  | dfrm => exact Laws.TableRow.dfrm
  | ack => exact Laws.TableRow.ack

/-- The fields of a command's word are its operands. -/
theorem build_encode (i : Instr) : i.row.build (encode i) = i := by
  cases i with
  | nop | valid | dfrm | ack => rfl
  | rscb y => exact congrArg _ (yField_encY 2 y)
  | unpk y x => exact congrArg₂ _ (yField_encYX 3 y x) (xField_encYX 3 y x)
  | pfet p c => exact congrArg₂ _ (pField_encPC 4 p c) (cField_encPC 4 p c)
  | asmb e => exact congrArg _ (entryField_encE 5 e)
  | dpix y x => exact congrArg₂ _ (yField_encYX 6 y x) (xField_encYX 6 y x)
  | dlin y => exact congrArg _ (yField_encY 7 y)

theorem decode_encode (i : Instr) : decode (encode i) = .ok i :=
  decode_eq_ok_iff.2 ⟨encode_matches_row i, build_encode i⟩

/-- Settles O1: the word matches the command's row, and the operands come back from their fields. -/
theorem decodeOfEncodeIsTheCommand : Obligations.DecodeOfEncodeIsTheCommand := decode_encode

/-- A word that matches a command's row is put together again from its opcode and its fields: no other bit of it is 1. -/
theorem encode_build {w : Word} (i : Instr) (hm : w &&& i.row.mask = i.row.pattern) : encode (i.row.build w) = w := by
  have ho : i.row.op = opField w := (op_of_row i.row_mem hm).symm
  have hfields : w &&& i.row.mask = (opField w).setWidth 32 := by rw [hm, row_pattern i.row_mem, ho]
  cases i with
  | nop | valid | dfrm | ack => exact (congrArg encN ho).trans (encN_fields hfields)
  | rscb | dlin => exact (congrArg (encY · (yField w)) ho).trans (encY_fields hfields)
  | unpk | dpix => exact (congrArg (encYX · (yField w) (xField w)) ho).trans (encYX_fields hfields)
  | pfet => exact (congrArg (encPC · (pField w) (cField w)) ho).trans (encPC_fields hfields)
  | asmb => exact (congrArg (encE · (entryField w)) ho).trans (encE_fields hfields)

/-- Settles O2: the command is built from the word's fields, and they are all of the word. -/
theorem encodeOfDecodeIsTheWord : Obligations.EncodeOfDecodeIsTheWord := by
  intro w i h
  obtain ⟨hm, hb⟩ := decode_eq_ok_iff.1 h
  have hw := encode_build i hm
  rwa [hb] at hw

/-! ## Match and mask (R78) -/

/-- Settles O3: the mask decides the row, and whatever the fields then hold are the operands. -/
theorem decodeByMatchAndMask : Obligations.DecodeByMatchAndMask := by
  intro w
  have hfixed : ∀ i : Instr, i.row.build w = i → (decode w = .ok i ↔ w &&& i.row.mask = i.row.pattern) :=
    fun i hb => decode_eq_ok_iff.trans (and_iff_left hb)
  have hbuilt : ∀ i : Instr, w &&& i.row.mask = i.row.pattern → decode w = .ok (i.row.build w) :=
    fun i => decode_row i.row_mem
  refine ⟨hfixed .nop rfl, hfixed .valid rfl, ?rscb, ?unpk, ?pfet, ?asmb, ?dpix, ?dlin, hfixed .dfrm rfl,
    hfixed .ack rfl⟩
  case rscb => exact ⟨fun ⟨_, h⟩ => (decode_eq_ok_iff.1 h).1, fun h => ⟨_, hbuilt (.rscb 0) h⟩⟩
  case unpk => exact ⟨fun ⟨_, _, h⟩ => (decode_eq_ok_iff.1 h).1, fun h => ⟨_, _, hbuilt (.unpk 0 0) h⟩⟩
  case pfet => exact ⟨fun ⟨_, _, h⟩ => (decode_eq_ok_iff.1 h).1, fun h => ⟨_, _, hbuilt (.pfet 0 0) h⟩⟩
  case asmb => exact ⟨fun ⟨_, h⟩ => (decode_eq_ok_iff.1 h).1, fun h => ⟨_, hbuilt (.asmb 0) h⟩⟩
  case dpix => exact ⟨fun ⟨_, _, h⟩ => (decode_eq_ok_iff.1 h).1, fun h => ⟨_, _, hbuilt (.dpix 0 0) h⟩⟩
  case dlin => exact ⟨fun ⟨_, h⟩ => (decode_eq_ok_iff.1 h).1, fun h => ⟨_, hbuilt (.dlin 0) h⟩⟩

/-! ## Illegal words (R79, R80, R224) -/

/-- A word whose opcode has no row is illegal (R79). -/
theorem decode_reserved_opcode {w : Word} (h : 10 ≤ (opField w).toNat) : decode w = .error .reservedOpcode := by
  have hrows : ∀ r ∈ opcodeRows, r.op.toNat < 10 := by decide
  have hnone : opcodeRows.find? (fun r => r.op == opField w) = none := by
    refine List.find?_eq_none.2 fun r hr heq => ?_
    have hlt := hrows r hr
    rw [eq_of_beq heq] at hlt
    omega
  rw [decode, hnone]

/-- An illegal word's first engine step ends it with ILLEGAL_CMD, code 2 (R224, R221). -/
theorem firstStep_of_illegal {w : Word} {r : Illegal} (h : decode w = .error r) (s : State) :
    firstStep w s = .next (endedWith 2 s) := by
  rw [firstStep, h]
  rfl

/-- Bits that a row's mask covers and its match has as 0 are reserved (R80). -/
theorem illegalWith_of_mask {r : OpcodeRow} (hr : r ∈ opcodeRows) {reserved : Word}
    (hmask : r.mask &&& reserved = reserved) (hpattern : r.pattern &&& reserved = 0) : IllegalWith r.op reserved := by
  intro w ho hbit
  have hne : w &&& r.mask ≠ r.pattern := fun hm => hbit <|
    calc w &&& reserved = w &&& r.mask &&& reserved := by rw [BitVec.and_assoc, hmask]
      _ = 0 := by rw [hm, hpattern]
  have hd : decode w = .error .reservedBits := decode_reserved_bits hr ho hne
  exact ⟨hd, firstStep_of_illegal hd⟩

/-- Settles O4: no row has the opcode, or the row's mask covers the reserved bits; and an illegal word's step raises. -/
theorem reservedEncodingsAreIllegal : Obligations.ReservedEncodingsAreIllegal := by
  refine ⟨fun w h => decode_reserved_opcode h, ?formatN, ?formatY, ?formatYX,
    illegalWith_of_mask (Instr.pfet 0 0).row_mem rfl rfl, illegalWith_of_mask (Instr.asmb 0).row_mem rfl rfl, ?step⟩
  case formatN =>
    rintro op (rfl | rfl | rfl | rfl)
    · exact illegalWith_of_mask Instr.nop.row_mem rfl rfl
    · exact illegalWith_of_mask Instr.valid.row_mem rfl rfl
    · exact illegalWith_of_mask Instr.dfrm.row_mem rfl rfl
    · exact illegalWith_of_mask Instr.ack.row_mem rfl rfl
  case formatY =>
    rintro op (rfl | rfl)
    · exact illegalWith_of_mask (Instr.rscb 0).row_mem rfl rfl
    · exact illegalWith_of_mask (Instr.dlin 0).row_mem rfl rfl
  case formatYX =>
    rintro op (rfl | rfl)
    · exact illegalWith_of_mask (Instr.unpk 0 0).row_mem rfl rfl
    · exact illegalWith_of_mask (Instr.dpix 0 0).row_mem rfl rfl
  case step =>
    intro w r s pick ts hd hacc hturns
    exact (hacc.step_eq hturns).trans (firstStep_of_illegal hd _)

/-! ## Operands (R73 to R77) -/

theorem yField_toNat (w : Word) : (yField w).toNat = w.toNat / 2 ^ 4 % 2 ^ 8 := by
  rw [yField, BitVec.extractLsb'_toNat, Nat.shiftRight_eq_div_pow]

theorem xField_toNat (w : Word) : (xField w).toNat = w.toNat / 2 ^ 12 % 2 ^ 9 := by
  rw [xField, BitVec.extractLsb'_toNat, Nat.shiftRight_eq_div_pow]

theorem pField_toNat (w : Word) : (pField w).toNat = w.toNat / 2 ^ 4 % 2 ^ 4 := by
  rw [pField, BitVec.extractLsb'_toNat, Nat.shiftRight_eq_div_pow]

theorem cField_toNat (w : Word) : (cField w).toNat = w.toNat / 2 ^ 8 % 2 ^ 4 := by
  rw [cField, BitVec.extractLsb'_toNat, Nat.shiftRight_eq_div_pow]

/-- ENTRY is the word's upper half, so nothing stands above it. -/
theorem entryField_toNat (w : Word) : (entryField w).toNat = w.toNat / 2 ^ 16 := by
  have hw := w.isLt
  rw [entryField, BitVec.extractLsb'_toNat, Nat.shiftRight_eq_div_pow]
  omega

/-- Settles O5: a decoded command is built from the word's fields. -/
theorem operandsAreTheirFields : Obligations.OperandsAreTheirFields := by
  intro w
  refine ⟨fun y h => ?y, fun y x h => ?yx, fun p c h => ?pc, fun e h => ?e⟩
  case y =>
    have hy : yField w = y := by
      rcases h with h | h
      · exact Instr.rscb.inj (decode_eq_ok_iff.1 h).2
      · exact Instr.dlin.inj (decode_eq_ok_iff.1 h).2
    rw [← hy, yField_toNat]
  case yx =>
    obtain ⟨hy, hx⟩ : yField w = y ∧ xField w = x := by
      rcases h with h | h
      · exact Instr.unpk.inj (decode_eq_ok_iff.1 h).2
      · exact Instr.dpix.inj (decode_eq_ok_iff.1 h).2
    rw [← hy, ← hx]
    exact ⟨yField_toNat w, xField_toNat w⟩
  case pc =>
    obtain ⟨hp, hc⟩ : pField w = p ∧ cField w = c := Instr.pfet.inj (decode_eq_ok_iff.1 h).2
    rw [← hp, ← hc]
    exact ⟨pField_toNat w, cField_toNat w⟩
  case e =>
    have he : entryField w = e := Instr.asmb.inj (decode_eq_ok_iff.1 h).2
    rw [← he, entryField_toNat]

/-! ## The spec's examples (R82) -/

/-- Settles O6: each word is its command's encoding, so it decodes to the command. -/
theorem exampleWordsDecode : Obligations.ExampleWordsDecode :=
  ⟨decode_encode (.dpix 0 1), decode_encode (.unpk 199 319), decode_encode (.pfet 15 15), decode_encode (.asmb 0x0ABC),
    decode_encode (.dlin 5), decode_encode (.rscb 5), decode_encode .dfrm, rfl, rfl, rfl, rfl, rfl, rfl, rfl⟩

end Sys2Proof
end

section
/-! PROOFS of the statements about the assembler and LOAD (30_encoding.md, section 3). -/

namespace Sys2Proof.Machine

/-! ## The assembler (R83) -/

/-- An operand fits exactly up to the largest value of its field. -/
theorem fitField_eq {w m : Nat} (hm : m + 1 = 2 ^ w) (n : Nat) :
    fitField w n = if n ≤ m then some (BitVec.ofNat w n) else none := by
  rw [fitField, ← hm]
  exact if_congr Nat.lt_succ_iff rfl rfl

theorem map_fitField {w m : Nat} (hm : m + 1 = 2 ^ w) (mk : BitVec w → Instr) (n : Nat) :
    (fitField w n).map mk = if n ≤ m then some (mk (BitVec.ofNat w n)) else none := by
  rw [fitField_eq hm]
  split <;> rfl

/-- A two-operand command is refused unless both operands fit. -/
theorem fitTwo_eq {v w m n : Nat} (hm : m + 1 = 2 ^ v) (hn : n + 1 = 2 ^ w) (mk : BitVec v → BitVec w → Instr)
    (a b : Nat) :
    fitTwo mk a b = if a ≤ m ∧ b ≤ n then some (mk (BitVec.ofNat v a) (BitVec.ofNat w b)) else none := by
  rw [fitTwo, fitField_eq hm, fitField_eq hn]
  by_cases ha : a ≤ m
  · by_cases hb : b ≤ n <;> simp [ha, hb]
  · simp [ha]

/-- Settles O7: each operand goes to its own field, whose largest value is the statement's bound. -/
theorem assemblerRefusesWhatDoesNotFit : Obligations.AssemblerRefusesWhatDoesNotFit := fun y x p c e =>
  ⟨map_fitField rfl _ y, map_fitField rfl _ y, fitTwo_eq rfl rfl _ y x, fitTwo_eq rfl rfl _ y x,
    fitTwo_eq rfl rfl _ p c, map_fitField rfl _ e⟩

/-! ## LOAD (R84, R264) -/

/-- LOAD on an idle block: the image's first bytes stand in SRC and its length in SRC_LEN; nothing else changes. -/
theorem foldl_loadImage {s : State} (img : List Byte) (hb : s.status.busy = false) :
    (loadImage img).foldl (fun u act => hostAct act u) s =
      { s with
        src := Cells.writeFrom s.src 0 (img.take Config.srcSize), srcLen := BitVec.ofNat 32 img.length } := by
  have hfits : 0 + (img.take Config.srcSize).length ≤ Config.srcSize := by
    rw [Nat.zero_add]; exact List.length_take_le _ img
  rw [loadImage, List.foldl_append, foldl_srcWrites _ hfits hb, List.foldl_cons, List.foldl_nil]
  exact hostAct_srcLenWrite_idle (s := { s with src := Cells.writeFrom s.src 0 (img.take Config.srcSize) }) _ hb

/-- SRC_LEN tells every length below 2^32 from 32,768. -/
theorem length_word_ne {n : Nat} (hn : n < 2 ^ 32) (hne : n ≠ 32768) : BitVec.ofNat 32 n ≠ 32768 := by
  intro h
  have hnat := congrArg BitVec.toNat h
  rw [BitVec.toNat_ofNat, Nat.mod_eq_of_lt hn] at hnat
  exact hne hnat

/-- Settles O21: LOAD writes the first 32,768 bytes to consecutive cells from 0 on, then the length. -/
theorem loadImagePutsTheBytesInSrc : Obligations.LoadImagePutsTheBytesInSrc := by
  intro s img hb
  rw [foldl_loadImage img hb]
  have hlen : (img.take Config.srcSize).length = min img.length 32768 := by rw [List.length_take, Nat.min_comm]
  refine ⟨fun i hi => ?_, fun i hi => ?_, rfl, fun hne hlt => length_word_ne hlt hne⟩
  · have hcell := Cells.read_writeFrom_inside s.src 0 _ (hlen ▸ hi)
    rw [Nat.zero_add] at hcell
    exact hcell.trans (List.getElem?_take_of_lt (Nat.lt_of_lt_of_le hi (Nat.min_le_right _ _)))
  · exact Cells.read_writeFrom_outside _ _ _ (.inr (by omega))

end Sys2Proof.Machine
end

section
/-! PROOFS about the pixel steps of a line or frame command, under either kind of schedule: what they leave in OUT, and that
they end the command. -/

namespace Sys2Proof.Machine

/-! ## OUT after a set of pixels -/

/-- `out` is the OUT of `s` with the pixels `ps` of its SRC written, each to its own cell. -/
structure Painted (s : State) (ps : List Pixel) (out : Raster) : Prop where
  written : ∀ p ∈ ps, ∀ px, pixelColour s p.y p.x = .ok px → Cells.read out (pixelNumber p) = some px
  kept : ∀ k, (∀ p ∈ ps, pixelNumber p ≠ k) → Cells.read out k = Cells.read s.out k

theorem Painted.nil (s : State) : Painted s [] s.out where
  written _ hp := absurd hp List.not_mem_nil
  kept _ _ := rfl

theorem mem_iff_eraseIdx {α : Type} {l : List α} {i : Nat} {a b : α} (ha : l[i]? = some a) :
    b ∈ l ↔ b = a ∨ b ∈ l.eraseIdx i := by
  obtain ⟨hi, rfl⟩ := List.getElem?_eq_some_iff.1 ha
  rw [← (List.getElem_cons_eraseIdx_perm hi).mem_iff, List.mem_cons]

/-- Write one of the pixels, then the others. -/
theorem Painted.of_write {s u : State} {ps : List Pixel} {i : Nat} {p : Pixel} {px : Rgb} {out : Raster}
    (h : Painted u (ps.eraseIdx i) out) (hi : ps[i]? = some p) (hpx : pixelColour s p.y p.x = .ok px)
    (hx : ∀ q ∈ ps, q.x < 320) (hsrc : u.src = s.src) (hconfig : u.config = s.config)
    (hout : u.out = Cells.write s.out (pixelNumber p) px) : Painted s ps out where
  written q hq qx hqx := by
    by_cases hrest : q ∈ ps.eraseIdx i
    · exact h.written q hrest qx ((pixelColour_congr hsrc hconfig q.y q.x).trans hqx)
    · obtain rfl : q = p := ((mem_iff_eraseIdx hi).1 hq).resolve_right hrest
      obtain rfl : px = qx := Except.ok.inj (hpx.symm.trans hqx)
      have hcell : ∀ r ∈ ps.eraseIdx i, pixelNumber r ≠ pixelNumber q := fun r hr he =>
        hrest (pixelNumber_inj (hx r (List.mem_of_mem_eraseIdx hr)) (hx q hq) he ▸ hr)
      rw [h.kept _ hcell, hout, Cells.read_write_same]
  kept k hk := by
    have hp : p ∈ ps := List.mem_of_getElem? hi
    rw [h.kept k fun q hq => hk q (List.mem_of_mem_eraseIdx hq), hout, Cells.read_write_other _ _ (hk p hp).symm]

/-! ## The pixel steps (R195, R196) -/

/-- A line or frame command is under way and nothing stops it: its pending pixels lie in the raster's columns and have a
colour. -/
structure Painting (s : State) : Prop where
  busy : s.status.busy = true
  has_cur : s.cur.isSome = true
  not_stuck : engineStuck s = false
  not_refused : refusedBy s = none
  in_columns : ∀ p ∈ s.pend, p.x < 320
  readable : ∀ p ∈ s.pend, Readable s p.y p.x

/-- A pixel step that leaves others pending leaves the command under way. -/
theorem Painting.after_pixel {s : State} (h : Painting s) (i k d : Nat) (px : Rgb) (ts : List Turn) :
    Painting (setPend (s.pend.eraseIdx i) (outWrite k px { s with turns := ts, draws := d })) where
  busy := h.busy
  has_cur := h.has_cur
  not_stuck := h.not_stuck
  not_refused := h.not_refused
  in_columns p hp := h.in_columns p (List.mem_of_mem_eraseIdx hp)
  readable p hp := h.readable p (List.mem_of_mem_eraseIdx hp)

theorem run_of_step {n : Nat} {s t : State} (h : step s = .next t) :
    Host.Core.run Sys2Proof.core (n + 1) s = Host.Core.run Sys2Proof.core n t := by
  rw [run_succ, h]

/-- As many engine steps as there are pending pixels write them all and complete the command. -/
theorem Painting.run_pend {n : Nat} {s : State} (h : Painting s) (hn : s.pend.length = n + 1)
    (hm : EngineMoves (n + 1) s) :
    ∃ out d, Host.Core.run Sys2Proof.core (n + 1) s =
        .next (ended { s with out := out, turns := s.turns.drop (n + 1), draws := d }) ∧ Painted s s.pend out := by
  induction n generalizing s with
  | zero =>
    obtain ⟨i, p, px, d, hi, hpx, hstep, -⟩ := step_pixel_any h.busy h.has_cur h.not_stuck h.not_refused
      (List.ne_nil_of_length_eq_add_one hn) hm h.readable
    have hlast : s.pend.eraseIdx i = [] := by
      obtain ⟨hlt, -⟩ := List.getElem?_eq_some_iff.1 hi
      exact List.length_eq_zero_iff.1 (by rw [List.length_eraseIdx_of_lt hlt, hn])
    rw [retirePixel_last (s := outWrite (pixelNumber p) px { s with turns := s.turns.drop 1, draws := d }) hlast]
      at hstep
    have hpainted := Painted.nil (outWrite (pixelNumber p) px s)
    rw [← hlast] at hpainted
    exact ⟨_, d, run_of_step hstep, hpainted.of_write hi hpx h.in_columns rfl rfl rfl⟩
  | succ n ih =>
    obtain ⟨i, p, px, d, hi, hpx, hstep, hmoves⟩ := step_pixel_any h.busy h.has_cur h.not_stuck h.not_refused
      (List.ne_nil_of_length_eq_add_one hn) hm h.readable
    have hlen : (s.pend.eraseIdx i).length = n + 1 := by
      obtain ⟨hlt, -⟩ := List.getElem?_eq_some_iff.1 hi
      rw [List.length_eraseIdx_of_lt hlt, hn, Nat.add_sub_cancel]
    rw [retirePixel_more (s := outWrite (pixelNumber p) px { s with turns := s.turns.drop 1, draws := d })
      (List.ne_nil_of_length_eq_add_one hlen)] at hstep
    obtain ⟨out, d', hrun, hpainted⟩ := ih (h.after_pixel i (pixelNumber p) d px (s.turns.drop 1)) hlen (hmoves _ rfl)
    refine ⟨out, d', ?_, hpainted.of_write hi hpx h.in_columns rfl rfl rfl⟩
    rw [run_of_step hstep, outWrite_pend, hrun, setPend_turns, outWrite_turns, List.drop_drop, Nat.add_comm 1]
    rfl

/-! ## From the accepted word on (R193, R194) -/

/-- An accepted word whose first step makes the pixels `ps` pending runs in one step more than there are pixels to a
completed command, with all of them written. -/
theorem Accepted.run_pixels {w : Word} {s : State} {ps : List Pixel} {n : Nat} (h : Accepted w s)
    (hfirst : ∀ ts, firstStep w { s with turns := ts } = .next (setPend ps { s with turns := ts })) (hn : ps.length = n)
    (hne : ps ≠ []) (hx : ∀ p ∈ ps, p.x < 320) (hr : ∀ p ∈ ps, Readable s p.y p.x) (hm : EngineMoves (n + 1) s) :
    ∃ out d, Host.Core.run Sys2Proof.core (n + 1) s =
        .next (ended { s with out := out, turns := s.turns.drop (n + 1), draws := d }) ∧ Painted s ps out := by
  obtain ⟨m, rfl⟩ : ∃ m, n = m + 1 := Nat.exists_eq_add_one.2 (hn ▸ List.length_pos_iff.2 hne)
  obtain ⟨hstep, hmoves⟩ := h.step_any hm
  rw [hfirst] at hstep
  have hpainting : Painting (setPend ps { s with turns := s.turns.drop 1 }) :=
    ⟨h.busy, congrArg Option.isSome h.cur_eq, h.not_stuck, h.not_refused, hx, hr⟩
  obtain ⟨out, d, hrun, hpainted⟩ := hpainting.run_pend hn (hmoves _ rfl)
  refine ⟨out, d, ?_, hpainted.written, hpainted.kept⟩
  rw [run_of_step hstep, hrun, setPend_turns, List.drop_drop, Nat.add_comm 1]
  rfl

theorem firstStep_dfrm {s : State} (hl : s.srcLen = 32768) :
    firstStep (encode .dfrm) s = .next (setPend framePixels s) := by
  rw [firstStep, decode_encode]
  exact checkSize_ok hl _

/-- DFRM runs in 64,001 engine steps to a completed command, with every pixel written (R194, R276). -/
theorem Accepted.run_dfrm {s : State} (h : Accepted (encode .dfrm) s) (hl : s.srcLen = 32768)
    (hr : ∀ y x, y < 200 → x < 320 → Readable s y x) (hm : EngineMoves 64001 s) :
    ∃ out d, Host.Core.run Sys2Proof.core 64001 s =
        .next (ended { s with out := out, turns := s.turns.drop 64001, draws := d }) ∧ Painted s framePixels out :=
  h.run_pixels (fun _ => firstStep_dfrm hl) length_framePixels framePixels_ne_nil
    (fun _ hp => (mem_framePixels.1 hp).2)
    (fun _ hp => hr _ _ (mem_framePixels.1 hp).1 (mem_framePixels.1 hp).2) hm

end Sys2Proof.Machine
end

section
/-! PROOFS about DECODE (R84): the host's program step by step under the default schedule, and the colours of the image. -/

namespace Sys2Proof.Machine

/-! ## The colour of a pixel of an image (R190) -/

theorem assemble_nats (l : Config.ChanLayout) (e : Entry) :
    (assemble l e).nats =
      (e.toNat / 2 ^ l.rLo.bit % 16 * 17, e.toNat / 2 ^ l.gLo.bit % 16 * 17, e.toNat / 2 ^ l.bLo.bit % 16 * 17) := by
  simp only [Rgb.nats, assemble, widen_toNat, channel_toNat]

/-- The address of the palette word that a selector byte and a bitmap byte name. -/
theorem paletteLoAddr_of_bytes (scb sb : Byte) (x : Nat) :
    paletteLoAddr (selectorIndex scb) (nibbleOf sb x) =
      32256 + 2 * (16 * (scb.toNat % 16) + if x % 2 = 0 then sb.toNat / 16 else sb.toNat % 16) := by
  rw [paletteLoAddr_eq, paletteIndex, selectorIndex_toNat, nibbleOf_toNat]

/-- A pixel of a whole image in SRC has the image's colour. -/
theorem pixelColour_of_image {s : State} {img : Nat → Byte} {y x : Nat} (hy : y < 200) (hx : x < 320)
    (hsrc : ∀ a, a < 32768 → Cells.read s.src a = some (img a)) :
    ∃ px, pixelColour s y x = .ok px ∧ px.nats = imagePixel s.config.layout (fun a => (img a).toNat) y x := by
  have hscb := hsrc (scbAddr y) (by have := scbAddr_in_range hy; omega)
  have hsb := hsrc (byteIndex y x) (by have := byteIndex_le hy hx; omega)
  have hhi := (paletteAddrs_in_range (selectorIndex (img (scbAddr y))) (nibbleOf (img (byteIndex y x)) x)).2
  refine ⟨_, pixelColour_of_bytes hscb hsb (hsrc _ (Nat.lt_succ_of_lt hhi)) (hsrc _ (Nat.lt_succ_of_le hhi)), ?_⟩
  rw [assemble_nats, entryOfBytes_toNat, paletteHiAddr, paletteLoAddr_of_bytes]
  rfl

/-! ## Host steps of the default schedule -/

/-- The engine is idle, no record stands and the schedule names nothing: the host has the next step. -/
structure HostsTurn (s : State) : Prop where
  idle : s.status.busy = false
  no_faults : s.faults = []
  no_turns : s.turns = []

theorem refusedBy_of_no_faults {s : State} (h : s.faults = []) : refusedBy s = none :=
  refusedBy_eq_none.2 (by simp [h])

theorem HostsTurn.step_eq {s : State} {a : HostAction} {rest : List HostAction} (h : HostsTurn s)
    (hp : s.prog = a :: rest) : step s = .next (hostAct a { s with prog := rest }) :=
  (hostStepRunsTheNextAction s a rest (refusedBy_of_no_faults h.no_faults) hp).2 h.no_turns h.idle

theorem run_trans {m n : Nat} {s t u : State} (hm : Host.Core.run Sys2Proof.core m s = .next t)
    (hn : Host.Core.run Sys2Proof.core n t = .next u) : Host.Core.run Sys2Proof.core (m + n) s = .next u :=
  (run_add m n s t hm).trans hn

/-- The host's writes of a list of bytes that fits, as steps of the run. -/
theorem HostsTurn.run_srcWrites (vs : List Byte) {s : State} {a : Nat} {rest : List HostAction} (h : HostsTurn s)
    (hfits : a + vs.length ≤ Config.srcSize) (hp : s.prog = srcWrites a vs ++ rest) :
    Host.Core.run Sys2Proof.core vs.length s =
      .next { s with src := Cells.writeFrom s.src a vs, prog := rest } := by
  induction vs generalizing s a with
  | nil =>
    obtain rfl : s.prog = rest := hp
    rfl
  | cons v vs ih =>
    rw [List.length_cons] at hfits ⊢
    have ha : a < Config.srcSize := Nat.lt_of_lt_of_le (by omega) hfits
    have hstep : step s = .next (srcWrite a v { s with prog := srcWrites (a + 1) vs ++ rest }) :=
      (h.step_eq hp).trans (congrArg Host.Outcome.next (hostAct_srcWrite_idle v ha h.idle))
    rw [run_of_step hstep]
    exact ih (s := srcWrite a v { s with prog := srcWrites (a + 1) vs ++ rest }) ⟨h.idle, h.no_faults, h.no_turns⟩
      (by omega) rfl

/-- The state after LOAD of an image that fits, with `rest` of the host's program still to come. -/
def loadedWith (img : List Byte) (rest : List HostAction) (s : State) : State :=
  { s with src := Cells.writeFrom s.src 0 img, srcLen := BitVec.ofNat 32 img.length, prog := rest }

/-- LOAD takes one step per byte and one for the length (R84). -/
theorem HostsTurn.run_loadImage {img : List Byte} {s : State} {rest : List HostAction} (h : HostsTurn s)
    (hfits : img.length ≤ Config.srcSize) (hp : s.prog = loadImage img ++ rest) :
    Host.Core.run Sys2Proof.core (img.length + 1) s = .next (loadedWith img rest s) := by
  rw [loadImage, List.take_of_length_le hfits, List.append_assoc] at hp
  have hbytes := h.run_srcWrites img (by omega) hp
  have hturn : HostsTurn { s with src := Cells.writeFrom s.src 0 img, prog := setLenAction img.length :: rest } :=
    ⟨h.idle, h.no_faults, h.no_turns⟩
  have hlength : step { s with src := Cells.writeFrom s.src 0 img, prog := setLenAction img.length :: rest } =
      .next (loadedWith img rest s) :=
    (hturn.step_eq rfl).trans (congrArg Host.Outcome.next (hostAct_srcLenWrite_idle _ h.idle))
  exact run_trans hbytes (run_of_step hlength)

theorem hostAct_cmdAction_idle {s : State} (i : Instr) (hb : s.status.busy = false) :
    hostAct (cmdAction i) s = acceptCommand (encode i) s := by
  have haccept : commandWrite (encode i) s = acceptCommand (encode i) s := if_neg (by simp [hb])
  exact (hostAct_ctrlWrite (encode i) s rfl (by decide)).trans haccept

/-! ## RUN DFRM -/

/-- `RUN DFRM` on a whole image ends the run with DONE and every pixel written: one step for the command, 64,001 of the
engine, and one for WAIT. -/
theorem HostsTurn.run_runCommand_dfrm {s : State} (h : HostsTurn s) (hpend : s.pend = []) (hl : s.srcLen = 32768)
    (hp : s.prog = runCommand .dfrm) (hr : ∀ y x, y < 200 → x < 320 → Readable s y x) :
    ∃ t, Host.Core.run Sys2Proof.core (1 + (64001 + 1)) s = .next t ∧ EndOfRun t ∧ t.status.done = true ∧
      t.status.err = false ∧ Painted s framePixels t.out := by
  have hcommand : step s = .next (acceptCommand (encode .dfrm) { s with prog := [.wait] }) :=
    (h.step_eq hp).trans (congrArg Host.Outcome.next (hostAct_cmdAction_idle .dfrm h.idle))
  have haccepted : Accepted (encode .dfrm) (acceptCommand (encode .dfrm) { s with prog := [.wait] }) :=
    ⟨rfl, rfl, hpend, engineStuck_eq_false.2 (by simp [h.no_faults]), refusedBy_of_no_faults h.no_faults⟩
  obtain ⟨out, d, hframe, hpainted⟩ := haccepted.run_dfrm hl hr (.inl h.no_turns)
  have hturns : s.turns.drop 64001 = [] := by rw [h.no_turns, List.drop_nil]
  have hwait := HostsTurn.step_eq (s := ended { acceptCommand (encode .dfrm) { s with prog := [.wait] } with
    out := out, turns := s.turns.drop 64001, draws := d }) (a := .wait) (rest := []) ⟨rfl, h.no_faults, hturns⟩ rfl
  exact ⟨_, run_trans (run_of_step hcommand) (run_trans hframe (run_of_step hwait)), ⟨rfl, rfl, h.no_faults⟩, rfl,
    rfl, hpainted.written, hpainted.kept⟩

/-! ## DECODE -/

/-- Settles O56: LOAD fills SRC with the image, and `RUN DFRM` writes the image's colours. -/
theorem decodeImageGivesTheRaster : Obligations.DecodeImageGivesTheRaster := by
  intro s img hlen hb hpend hf ht hp
  have hhost : HostsTurn s := ⟨hb, hf, ht⟩
  have hload := hhost.run_loadImage (Nat.le_of_eq hlen) hp
  have hsrc : ∀ a, a < 32768 → Cells.read (loadedWith img (runCommand .dfrm) s).src a = some (img.getD a 0) := by
    intro a ha
    have hcell := Cells.read_writeFrom_inside s.src 0 img (hlen ▸ ha)
    rw [Nat.zero_add] at hcell
    refine hcell.trans ?_
    rw [List.getD_eq_getElem _ _ (hlen ▸ ha), List.getElem?_eq_getElem]
  obtain ⟨t, hrun, hend, hdone, herr, hpainted⟩ := HostsTurn.run_runCommand_dfrm
    (s := loadedWith img (runCommand .dfrm) s) ⟨hb, hf, ht⟩ hpend (congrArg (BitVec.ofNat 32) hlen) rfl
    fun y x hy hx => (pixelColour_of_image hy hx hsrc).imp fun _ h => h.1
  have hsteps : img.length + 1 + (1 + (64001 + 1)) = 96772 := by rw [hlen]
  refine ⟨t, hsteps ▸ run_trans hload hrun, hend, hdone, herr, fun y x hy hx => ?_⟩
  obtain ⟨px, hpx, hnats⟩ := pixelColour_of_image hy hx hsrc
  exact ⟨px, hpainted.written ⟨y, x⟩ (mem_framePixels.2 ⟨hy, hx⟩) px hpx, hnats⟩

end Sys2Proof.Machine
end

section
/-! PROOFS of the statements about the control commands and how a command is accepted and run (40_control.md). -/

namespace Sys2Proof.Machine

/-! ## Command writes (R101, R102) -/

theorem hostAct_commandWrite (w : Word) (s : State) : hostAct (.ctrlWrite 0x00 32 w) s = commandWrite w s :=
  hostAct_ctrlWrite w s rfl (by decide)

theorem commandWrite_idle (w : Word) {s : State} (hb : s.status.busy = false) :
    commandWrite w s = acceptCommand w s := if_neg (by simp [hb])

theorem commandWrite_busy (w : Word) {s : State} (hb : s.status.busy = true) :
    commandWrite w s = overrunCommand s := if_pos hb

/-- Settles O15: the write accepts the word or overruns, as BUSY says. -/
theorem commandWriteAcceptsOrOverruns : Obligations.CommandWriteAcceptsOrOverruns := fun s w =>
  ⟨fun hidle => (hostAct_commandWrite w s).trans (commandWrite_idle w hidle),
    fun hbusy => (hostAct_commandWrite w s).trans (commandWrite_busy w hbusy)⟩

/-! ## Dispatch (R108) -/

theorem firstStep_of_decode {w : Word} {i : Instr} (h : decode w = .ok i) (s : State) : firstStep w s = exec i s := by
  rw [firstStep, h]

theorem decode_of_decodeTableWord {n w : Nat} {i : Instr} (h : decodeTableWord n w = some i) :
    decode (tableWord n w) = .ok i := by
  cases hd : decode (tableWord n w) with
  | error r => simp [decodeTableWord, hd, Except.toOption] at h
  | ok j => simpa [decodeTableWord, hd, Except.toOption] using h

/-- Fetching drops the records that would hold the engine back or refuse the run (log entry 11). -/
theorem fetchCommand_accepted (w : Word) (s : State) : Accepted w (fetchCommand w s) where
  busy := rfl
  cur_eq := rfl
  pend_eq := rfl
  not_stuck := engineStuck_eq_false.2 fun a ha => by simpa [Fault.isUnwrittenSrc] using (List.mem_filter.1 ha).2
  not_refused := refusedBy_eq_none.2 fun g hg => by simpa [Fault.isHostHazard] using (List.mem_filter.1 hg).2

/-- Settles O23: the step is the accepted word's first, and a fetched word is accepted with the engine's turn next. -/
theorem stepRunsTheDecodedCommand : Obligations.StepRunsTheDecodedCommand := by
  refine ⟨fun s w i hacc hd => ⟨fun pick ts hturns => ?named, fun hturns => ?free⟩, fun s w i _ hd => ?fetched⟩
  case named => exact (hacc.step_eq hturns).trans (firstStep_of_decode hd _)
  case free => exact (hacc.step_eq_free hturns).trans (firstStep_of_decode hd s)
  case fetched =>
    exact ((fetchCommand_accepted (tableWord 32 w) s).step_eq rfl).trans
      (firstStep_of_decode (decode_of_decodeTableWord hd) _)

/-! ## NOP, VALID and ACK (R105 to R107) -/

theorem exec_nop (s : State) : exec .nop s = .next (completeCommand s) := rfl

theorem exec_ack (s : State) : exec .ack s = .next (completeAck s) := rfl

theorem exec_valid_of_size {s : State} (h : s.srcLen = 32768) : exec .valid s = .next (completeCommand s) :=
  checkSize_ok h _

theorem exec_valid_of_bad_size {s : State} (h : s.srcLen ≠ 32768) : exec .valid s = .next (raiseError .fmtSize s) :=
  checkSize_bad h _

/-- Settles O27: every bit above OP is reserved, and NOP checks nothing before it completes. -/
theorem nopCompletes : Obligations.NopCompletes :=
  ⟨rfl, illegalWith_of_mask Instr.nop.row_mem rfl rfl, exec_nop⟩

/-- Settles O28: SRC_LEN is all that VALID checks. -/
theorem validChecksTheLength : Obligations.ValidChecksTheLength :=
  ⟨rfl, illegalWith_of_mask Instr.valid.row_mem rfl rfl, fun _ => ⟨exec_valid_of_size, exec_valid_of_bad_size⟩⟩

/-- Accepting clears DONE, ERR and ERRCODE (R101), and ACK clears BUSY and OVR: no field of STATUS is left. -/
theorem Status.completeAck_accept (st : Status) : st.accept.completeAck = Status.reset := rfl

/-- Settles O29: ACK's end is the state written out; run as it is accepted, ACK leaves the STATUS of reset. -/
theorem ackClearsTheStatus : Obligations.AckClearsTheStatus := by
  refine ⟨rfl, illegalWith_of_mask Instr.ack.row_mem rfl rfl, exec_ack, fun s t hidle h => ?asAccepted⟩
  have haccept : hostAct (.ctrlWrite 0x00 32 (encode .ack)) s = acceptCommand (encode .ack) s :=
    hostAct_cmdAction_idle .ack hidle
  rw [haccept, exec_ack] at h
  obtain rfl : completeAck (acceptCommand (encode .ack) s) = t := Host.Outcome.next.inj h
  calc s.status.accept.completeAck.word = Status.reset.word := congrArg Status.word (Status.completeAck_accept s.status)
    _ = 0 := rfl

/-! ## The frame of the control commands -/

/-- All that NOP, VALID and ACK can do. -/
inductive ControlEffect (i : Instr) (s : State) : State → Prop where
  | completed (hi : i ≠ .ack) : ControlEffect i s (completeCommand s)
  | acknowledged (hi : i = .ack) : ControlEffect i s (completeAck s)
  | badSize (hi : i ≠ .ack) : ControlEffect i s (raiseError .fmtSize s)

theorem control_effect {i : Instr} (s : State) (hi : i = .nop ∨ i = .valid ∨ i = .ack) :
    ∃ t, exec i s = .next t ∧ ControlEffect i s t := by
  obtain rfl | rfl | rfl := hi
  · exact ⟨_, exec_nop s, .completed nofun⟩
  · by_cases hsize : s.srcLen = 32768
    · exact ⟨_, exec_valid_of_size hsize, .completed nofun⟩
    · exact ⟨_, exec_valid_of_bad_size hsize, .badSize nofun⟩
  · exact ⟨_, exec_ack s, .acknowledged rfl⟩

/-- However a command ends, it leaves the inputs alone: only STATUS, CUR and PEND change. -/
theorem keepsInputs_of_commandOver (s : State) (st : Status) :
    KeepsInputs s { s with pend := [], cur := none, status := st } :=
  ⟨fun _ => rfl, rfl, rfl, rfl, rfl, rfl, rfl⟩

/-- Settles O40: each end of a control command changes STATUS, CUR and PEND only, and only ACK's touches OVR. -/
theorem controlCommandFrame : Obligations.ControlCommandFrame := by
  intro i s t hi h
  obtain ⟨u, hu, heffect⟩ := control_effect s hi
  obtain rfl : u = t := Host.Outcome.next.inj (hu.symm.trans h)
  cases heffect with
  | completed =>
    exact ⟨keepsInputs_of_commandOver s _, fun _ => rfl, rfl, rfl, fun _ => rfl, .inl ⟨rfl, rfl⟩⟩
  | acknowledged hack =>
    exact ⟨keepsInputs_of_commandOver s _, fun _ => rfl, rfl, rfl, fun hne => absurd hack hne, .inl ⟨rfl, rfl⟩⟩
  | badSize =>
    exact ⟨keepsInputs_of_commandOver s _, fun _ => rfl, rfl, rfl, fun _ => rfl, .inr rfl⟩

end Sys2Proof.Machine
end

section
/-! PROOFS of the statements about the selector resolver (41_selector.md): RSCB, the frame of the commands that return a
value, and what no command reads of a selector. -/

namespace Sys2Proof.Machine

/-! ## RSCB (R124) -/

section
variable {y : BitVec 8} {s : State}

theorem exec_rscb_of_bad_row (h : 200 ≤ y.toNat) : exec (.rscb y) s = .next (raiseError .argRange s) := by
  rw [exec, execRscb, legalY_of_ge h, checkArgs_false]

theorem exec_rscb_of_bad_size (hy : y.toNat < 200) (h : s.srcLen ≠ 32768) :
    exec (.rscb y) s = .next (raiseError .fmtSize s) := by
  rw [exec, execRscb, legalY_of_lt hy, checkArgs_true, checkSize_bad h]

/-- Past its checks RSCB reads its row's selector byte and nothing else. -/
theorem exec_rscb_of_checked (hy : y.toNat < 200) (h : s.srcLen = 32768) :
    exec (.rscb y) s = withRead (srcRead s (scbAddr y.toNat)) s fun scb =>
      completeCommand (setResult (resultOfByteIndex scb (selectorIndex scb)) s) := by
  rw [exec, execRscb, legalY_of_lt hy, checkArgs_true, checkSize_ok h]

end

/-- R86: the RESULT word of a selector byte. -/
theorem resultOfByteIndex_selector (scb : Byte) :
    resultOfByteIndex scb (selectorIndex scb) = scb.setWidth 32 <<< 8 ||| (scb &&& 0x0F).setWidth 32 := by
  rw [resultOfByteIndex, selectorIndex_setWidth]

/-- Settles O30: each check ends the command, and past them the one read decides. -/
theorem rscbResolvesTheSelector : Obligations.RscbResolvesTheSelector := by
  refine ⟨illegalWith_of_mask (Instr.rscb 0).row_mem rfl rfl, fun y => ⟨rfl, fun s =>
    ⟨exec_rscb_of_bad_row, exec_rscb_of_bad_size, fun hy hsize => ⟨fun scb hread => ?written, fun hread => ?unwritten⟩⟩⟩⟩
  case written =>
    rw [exec_rscb_of_checked hy hsize, srcRead_of_some (a := scbAddr y.toNat) hread, withRead_ok,
      resultOfByteIndex_selector]
    rfl
  case unwritten =>
    rw [exec_rscb_of_checked hy hsize, srcRead_of_none (a := scbAddr y.toNat) hread, withRead_error]
    rfl

/-! ## The frame of RSCB, UNPK, PFET and ASMB -/

/-- All that a command that returns a value can do. -/
inductive ValueEffect (s : State) : State → Prop where
  | raised (e : ErrCode) : ValueEffect s (raiseError e s)
  | unwritten (a : Nat) : ValueEffect s (addFault (.unwrittenSrc a) s)
  | returned (v : Word) : ValueEffect s (completeCommand (setResult v s))

/-- The shape that RSCB, UNPK and PFET share: the checks, one value read from SRC, RESULT. -/
theorem checkedRead_valueEffect {α : Type} {s : State} (legal : Bool) {r : Except Fault α} (result : α → Word)
    (hr : ∀ f, r = .error f → ∃ a, f = .unwrittenSrc a ∧ Cells.read s.src a = none) :
    ∃ t, checkArgs legal s (checkSize s (withRead r s fun v => completeCommand (setResult (result v) s))) = .next t ∧
      ValueEffect s t := by
  cases legal with
  | false => exact ⟨_, rfl, .raised .argRange⟩
  | true =>
    rw [checkArgs_true]
    by_cases hsize : s.srcLen = 32768
    · rw [checkSize_ok hsize]
      cases r with
      | ok v => exact ⟨_, rfl, .returned (result v)⟩
      | error f => obtain ⟨a, rfl, _⟩ := hr f rfl; exact ⟨_, rfl, .unwritten a⟩
    · exact ⟨_, checkSize_bad hsize _, .raised .fmtSize⟩

theorem value_effect {i : Instr} (s : State)
    (hi : (∃ y, i = .rscb y) ∨ (∃ y x, i = .unpk y x) ∨ (∃ p c, i = .pfet p c) ∨ ∃ e, i = .asmb e) :
    ∃ t, exec i s = .next t ∧ ValueEffect s t := by
  obtain ⟨y, rfl⟩ | ⟨y, x, rfl⟩ | ⟨p, c, rfl⟩ | ⟨e, rfl⟩ := hi
  · exact checkedRead_valueEffect (legalY y) _ srcRead_error
  · exact checkedRead_valueEffect (legalY y && legalX x) _ srcRead_error
  · exact checkedRead_valueEffect true _ fun _ => palWord_error
  · exact ⟨_, rfl, .returned _⟩

theorem keepsInputs_addFault (f : Fault) (s : State) : KeepsInputs s (addFault f s) := by
  rw [addFault_eq]
  exact ⟨fun _ => rfl, rfl, rfl, rfl, rfl, rfl, rfl⟩

/-- Settles O41: an error or a returned value ends the command and touches STATUS, CUR, PEND and RESULT at most; a byte
that cannot be read touches FAULT only. -/
theorem valueCommandFrame : Obligations.ValueCommandFrame := by
  intro i s t hi h
  obtain ⟨u, hu, heffect⟩ := value_effect s hi
  obtain rfl : u = t := Host.Outcome.next.inj (hu.symm.trans h)
  cases heffect with
  | raised e =>
    exact ⟨keepsInputs_of_commandOver s _, fun _ => rfl, rfl, .inr ⟨rfl, rfl, rfl, rfl, .inl ⟨rfl, rfl, rfl⟩⟩⟩
  | unwritten a =>
    refine ⟨keepsInputs_addFault _ s, fun _ => by rw [addFault_out], by rw [addFault_status], .inl ?_⟩
    exact ⟨addFault_status s _, addFault_cur s _, addFault_pend s _, addFault_result s _⟩
  | returned v =>
    exact ⟨keepsInputs_of_commandOver (setResult v s) _, fun _ => rfl, rfl,
      .inr ⟨rfl, rfl, rfl, rfl, .inr ⟨rfl, rfl, rfl⟩⟩⟩

/-! ## Bits 7:4 of a selector (R121) -/

theorem selectorIndex_eq_of_low_bits {scb scb' : Byte} (h : scb.toNat % 16 = scb'.toNat % 16) :
    selectorIndex scb = selectorIndex scb' :=
  BitVec.eq_of_toNat_eq (by rw [selectorIndex_toNat, selectorIndex_toNat, h])

/-- A pixel's colour is its three stages' (R190). -/
theorem pixelColour_congr_stages {s t : State} {y x : Nat} (hp : pidx s y = pidx t y) (hc : cidx s y x = cidx t y x)
    (hw : ∀ p c, palWord s p c = palWord t p c) (hl : s.config = t.config) :
    pixelColour s y x = pixelColour t y x := by
  simp only [pixelColour, hp, hc, hw, hl]

theorem pidx_of_low_bits {scb scb' : Byte} (h : scb.toNat % 16 = scb'.toNat % 16) (s : State) (row y : Nat) :
    pidx (srcWrite (32000 + row) scb s) y = pidx (srcWrite (32000 + row) scb' s) y := by
  rw [pidx_srcWrite, pidx_srcWrite, selectorIndex_eq_of_low_bits h]

theorem pixelColour_of_low_bits {scb scb' : Byte} (h : scb.toNat % 16 = scb'.toNat % 16) (s : State) {row y x : Nat}
    (hrow : row < 256) (hy : y < 200) (hx : x < 320) :
    pixelColour (srcWrite (32000 + row) scb s) y x = pixelColour (srcWrite (32000 + row) scb' s) y x := by
  refine pixelColour_congr_stages (pidx_of_low_bits h s row y) ?bitmap (fun p c => ?palette) rfl
  case bitmap => rw [cidx_srcWrite_selector _ _ hy hx hrow, cidx_srcWrite_selector _ _ hy hx hrow]
  case palette => rw [palWord_srcWrite_selector _ _ _ _ hrow, palWord_srcWrite_selector _ _ _ _ hrow]

/-! ## A byte written to SRC and carried along -/

/-- `o'` answers what `o` answers, with byte `v` in place at SRC address `a`. -/
def CarriesByte (a : Nat) (v : Byte) (o o' : Host.Outcome State Fault Refusal) : Prop :=
  ∀ t, o = .next t → o' = .next (srcWrite a v t)

section
variable {a : Nat} {v : Byte} {s : State}

theorem addFault_srcWrite (f : Fault) (a : Nat) (v : Byte) (s : State) :
    addFault f (srcWrite a v s) = srcWrite a v (addFault f s) := by
  unfold addFault
  rw [srcWrite_faults]
  split <;> rfl

theorem retirePixel_srcWrite (n a : Nat) (v : Byte) (s : State) :
    retirePixel n (srcWrite a v s) = srcWrite a v (retirePixel n s) := by
  unfold retirePixel
  rw [srcWrite_pend]
  split <;> rfl

theorem CarriesByte.next {t t' : State} (h : t' = srcWrite a v t) : CarriesByte a v (.next t) (.next t') := by
  rintro _ ⟨⟩
  rw [h]

theorem CarriesByte.checkArgs {legal : Bool} {body body' : Host.Outcome State Fault Refusal}
    (h : legal = true → CarriesByte a v body body') :
    CarriesByte a v (checkArgs legal s body) (checkArgs legal (srcWrite a v s) body') := by
  cases legal with
  | false => exact .next rfl
  | true => exact h rfl

/-- SRC_LEN is no SRC cell. -/
theorem CarriesByte.checkSize {body body' : Host.Outcome State Fault Refusal} (h : CarriesByte a v body body') :
    CarriesByte a v (checkSize s body) (checkSize (srcWrite a v s) body') := by
  by_cases hsize : s.srcLen = 32768
  · rw [checkSize_ok hsize, checkSize_ok (s := srcWrite a v s) hsize]
    exact h
  · rw [checkSize_bad hsize, checkSize_bad (s := srcWrite a v s) hsize]
    exact .next rfl

/-- A value that is read alike is used alike, and so is the record of a byte that cannot be read. -/
theorem CarriesByte.withRead {α : Type} {r r' : Except Fault α} {k k' : α → State} (hr : r' = r)
    (hk : ∀ u, k' u = srcWrite a v (k u)) : CarriesByte a v (withRead r s k) (withRead r' (srcWrite a v s) k') := by
  subst hr
  cases r' with
  | ok u => exact .next (hk u)
  | error f => exact .next (addFault_srcWrite f a v s)

end

/-! ## Selector entries 200 to 255 (R121) -/

section
variable {row : Nat} (hlo : 200 ≤ row) (hhi : row < 256) (v : Byte) (s : State)

include hlo in
theorem srcRead_scbAddr_srcWrite_padding {y : Nat} (hy : y < 200) :
    srcRead (srcWrite (32000 + row) v s) (scbAddr y) = srcRead s (scbAddr y) := by
  have hne : scbAddr y ≠ 32000 + row := by have := scbAddr_in_range hy; omega
  rw [srcRead_srcWrite, if_neg hne]

include hhi in
theorem srcRead_byteIndex_srcWrite_padding {y x : Nat} (hy : y < 200) (hx : x < 320) :
    srcRead (srcWrite (32000 + row) v s) (byteIndex y x) = srcRead s (byteIndex y x) := by
  rw [srcRead_srcWrite, if_neg (addresses_outside_selectors 0 0 hy hx hhi).1]

include hlo hhi

theorem pixelColour_srcWrite_padding {y x : Nat} (hy : y < 200) (hx : x < 320) :
    pixelColour (srcWrite (32000 + row) v s) y x = pixelColour s y x := by
  have hne : y ≠ row := by omega
  have hp : pidx (srcWrite (32000 + row) v s) y = pidx s y := by rw [pidx_srcWrite, if_neg hne]
  exact pixelColour_congr_stages hp (cidx_srcWrite_selector v s hy hx hhi)
    (fun p c => palWord_srcWrite_selector v s p c hhi) rfl

/-- No command's first step reads a selector entry past row 199. -/
theorem exec_carries_padding (i : Instr) :
    CarriesByte (32000 + row) v (exec i s) (exec i (srcWrite (32000 + row) v s)) := by
  cases i with
  | nop => exact .next rfl
  | valid => exact .checkSize (.next rfl)
  | rscb y =>
    refine .checkArgs fun hy => .checkSize (.withRead ?_ fun _ => rfl)
    exact srcRead_scbAddr_srcWrite_padding hlo v s (legalY_iff.1 hy)
  | unpk y x =>
    refine .checkArgs fun hlegal => .checkSize (.withRead ?_ fun _ => rfl)
    obtain ⟨hy, hx⟩ := Bool.and_eq_true_iff.1 hlegal
    exact srcRead_byteIndex_srcWrite_padding hhi v s (legalY_iff.1 hy) (legalX_iff.1 hx)
  | pfet p c => exact .checkSize (.withRead (palWord_srcWrite_selector v s p c hhi) fun _ => rfl)
  | asmb e => exact .next rfl
  | dpix y x =>
    refine .checkArgs fun hlegal => .checkSize (.withRead ?_ fun _ => rfl)
    obtain ⟨hy, hx⟩ := Bool.and_eq_true_iff.1 hlegal
    exact pixelColour_srcWrite_padding hlo hhi v s (legalY_iff.1 hy) (legalX_iff.1 hx)
  | dlin y => exact .checkArgs fun _ => .checkSize (.next rfl)
  | dfrm => exact .checkSize (.next rfl)
  | ack => exact .next rfl

theorem firstStep_carries_padding (w : Word) :
    CarriesByte (32000 + row) v (firstStep w s) (firstStep w (srcWrite (32000 + row) v s)) := by
  unfold firstStep
  split
  · exact .next rfl
  · exact exec_carries_padding hlo hhi v s _

/-- The invariant keeps every pending pixel in the raster, so that its selector is a scanline's. -/
theorem pixelStep_carries_padding {s : State} (h : Invariant s) (pick : Nat) :
    CarriesByte (32000 + row) v (pixelStep pick s) (pixelStep pick (srcWrite (32000 + row) v s)) := by
  unfold pixelStep
  rw [srcWrite_pend]
  split
  · exact .next rfl
  · next p hp =>
    obtain ⟨hy, hx⟩ := h.pend_in_raster (List.mem_of_getElem? hp)
    exact .withRead (pixelColour_srcWrite_padding hlo hhi v s hy hx) fun px =>
      retirePixel_srcWrite _ _ v (outWrite (pixelNumber p) px s)

theorem engineTurn_carries_padding {s : State} (h : Invariant s) (pick : Nat) :
    CarriesByte (32000 + row) v (engineTurn pick s) (engineTurn pick (srcWrite (32000 + row) v s)) := by
  have henabled : engineEnabled (srcWrite (32000 + row) v s) = engineEnabled s := rfl
  unfold engineTurn
  rw [henabled, srcWrite_pend, srcWrite_cur]
  split
  · split
    · exact pixelStep_carries_padding hlo hhi v h pick
    · exact firstStep_carries_padding hlo hhi v s _
    · exact .next rfl
  · exact .next rfl

end

/-- Settles O48: a selector byte gives only its low nibble, and no legal row's selector stands at entries 200 to 255. -/
theorem selectorHighBitsAndPaddingHaveNoEffect : Obligations.SelectorHighBitsAndPaddingHaveNoEffect := by
  refine ⟨fun s row scb scb' hrow hlow y x hy hx => ⟨?colour, pidx_of_low_bits hlow s row y⟩,
    fun i s t a v hlo hhi h => ?first, fun s t pick a v hinv hlo hhi h => ?turn⟩
  case colour => exact pixelColour_of_low_bits hlow s (by omega) hy hx
  case first =>
    obtain ⟨row, rfl⟩ := Nat.exists_eq_add_of_le (show 32000 ≤ a by omega)
    exact exec_carries_padding (by omega) (by omega) v s i t h
  case turn =>
    obtain ⟨row, rfl⟩ := Nat.exists_eq_add_of_le (show 32000 ≤ a by omega)
    exact engineTurn_carries_padding (by omega) (by omega) v hinv pick t h

end Sys2Proof.Machine
end

section
/-! PROOFS of the statement about the nibble unpacker (42_unpacker.md): UNPK. -/

namespace Sys2Proof.Machine

/-! ## Legal positions (R51, R223) -/

section
variable {y : BitVec 8} {x : BitVec 9}

theorem legalYX_of_lt (hy : y.toNat < 200) (hx : x.toNat < 320) : (legalY y && legalX x) = true := by
  rw [legalY_of_lt hy, legalX_of_lt hx, Bool.and_self]

theorem legalYX_of_ge (h : 200 ≤ y.toNat ∨ 320 ≤ x.toNat) : (legalY y && legalX x) = false := by
  obtain hy | hx := h
  · rw [legalY_of_ge hy, Bool.false_and]
  · rw [legalX_of_ge hx, Bool.and_false]

end

/-! ## UNPK (R144) -/

section
variable {y : BitVec 8} {x : BitVec 9} {s : State}

theorem exec_unpk_of_bad_position (h : 200 ≤ y.toNat ∨ 320 ≤ x.toNat) :
    exec (.unpk y x) s = .next (raiseError .argRange s) := by
  rw [exec, execUnpk, legalYX_of_ge h, checkArgs_false]

theorem exec_unpk_of_bad_size (hy : y.toNat < 200) (hx : x.toNat < 320) (h : s.srcLen ≠ 32768) :
    exec (.unpk y x) s = .next (raiseError .fmtSize s) := by
  rw [exec, execUnpk, legalYX_of_lt hy hx, checkArgs_true, checkSize_bad h]

/-- Past its checks UNPK reads its position's bitmap byte and nothing else. -/
theorem exec_unpk_of_checked (hy : y.toNat < 200) (hx : x.toNat < 320) (h : s.srcLen = 32768) :
    exec (.unpk y x) s = withRead (srcRead s (byteIndex y.toNat x.toNat)) s fun sb =>
      completeCommand (setResult (resultOfByteIndex sb (nibbleOf sb x.toNat)) s) := by
  rw [exec, execUnpk, legalYX_of_lt hy hx, checkArgs_true, checkSize_ok h]

end

/-- R86, R142: the RESULT word of a bitmap byte. -/
theorem resultOfByteIndex_nibble (sb : Byte) (x : Nat) :
    resultOfByteIndex sb (nibbleOf sb x) =
      sb.setWidth 32 <<< 8 ||| (if x % 2 = 0 then sb >>> 4 else sb &&& 0x0F).setWidth 32 := by
  rw [resultOfByteIndex, nibbleOf_setWidth]

/-- Settles O31: each check ends the command, and past them the one read decides. -/
theorem unpkUnpacksTheNibble : Obligations.UnpkUnpacksTheNibble := by
  refine ⟨illegalWith_of_mask (Instr.unpk 0 0).row_mem rfl rfl, fun y x => ⟨rfl, fun s =>
    ⟨exec_unpk_of_bad_position, exec_unpk_of_bad_size, fun hy hx hsize =>
      ⟨fun sb hread => ?written, fun hread => ?unwritten⟩⟩⟩⟩
  case written =>
    rw [exec_unpk_of_checked hy hx hsize, srcRead_of_some (a := byteIndex y.toNat x.toNat) hread, withRead_ok,
      resultOfByteIndex_nibble]
    rfl
  case unwritten =>
    rw [exec_unpk_of_checked hy hx hsize, srcRead_of_none (a := byteIndex y.toNat x.toNat) hread, withRead_error]
    rfl

end Sys2Proof.Machine
end

section
/-! PROOFS of the statements about the palette multiplexer and the colour assembler (43_palette.md): the channels and their
widening, PFET and ASMB. -/

namespace Sys2Proof.Machine

/-! ## Channels and widening (R163, R164, R165) -/

theorem widen_strictMono {v w : Nibble} (h : v.toNat < w.toNat) : (widen v).toNat < (widen w).toNat := by
  rw [widen_toNat, widen_toNat]
  omega

/-- R163: bits 15:12 of an entry are in no channel but the one at position 12. -/
theorem channel_and_low {pos : Config.NibblePos} (h : pos ≠ .p12) (e : Entry) :
    channel (e &&& 0x0FFF) pos = channel e pos := by
  have hmask : (0x0FFF : Entry).extractLsb' pos.bit 4 = BitVec.allOnes 4 := by
    cases pos with
    | p12 => exact absurd rfl h
    | p0 | p4 | p8 => rfl
  rw [channel, BitVec.extractLsb'_and, hmask, BitVec.and_allOnes, channel]

/-- A layout that leaves position 12 unused takes its colour from bits 11:0. -/
theorem assemble_and_low {l : Config.ChanLayout} (hr : l.rLo ≠ .p12) (hg : l.gLo ≠ .p12) (hb : l.bLo ≠ .p12)
    (e : Entry) : assemble l (e &&& 0x0FFF) = assemble l e := by
  rw [assemble, channel_and_low hr, channel_and_low hg, channel_and_low hb, assemble]

/-- Settles O45: a channel is `v * 17 = v * 16 + v`, and the layout (8, 4, 0) leaves position 12 unused. -/
theorem colourAssemblyIsExact : Obligations.ColourAssemblyIsExact := by
  refine ⟨assemble_nats, fun v => ⟨widen_toNat v, ?exact⟩, fun _ _ => widen_strictMono, fun e e' h => ?unused⟩
  case exact =>
    rw [widen_toNat]
    omega
  case unused =>
    have hlow := assemble_and_low (l := { rLo := .p8, gLo := .p4, bLo := .p0 }) (by decide) (by decide) (by decide)
    rw [← hlow e, h, hlow e']

/-! ## PFET (R168) -/

section
variable {p c : Nibble} {s : State}

theorem palWord_of_bytes {b0 b1 : Byte} (hlo : Cells.read s.src (paletteLoAddr p c) = some b0)
    (hhi : Cells.read s.src (paletteHiAddr p c) = some b1) : palWord s p c = .ok (entryOfBytes b0 b1) := by
  simp only [palWord, srcRead_of_some hlo, srcRead_of_some hhi]

theorem palWord_of_unwritten_lo (hlo : Cells.read s.src (paletteLoAddr p c) = none) :
    palWord s p c = .error (.unwrittenSrc (paletteLoAddr p c)) := by
  simp only [palWord, srcRead_of_none hlo]

theorem palWord_of_unwritten_hi {b0 : Byte} (hlo : Cells.read s.src (paletteLoAddr p c) = some b0)
    (hhi : Cells.read s.src (paletteHiAddr p c) = none) :
    palWord s p c = .error (.unwrittenSrc (paletteHiAddr p c)) := by
  simp only [palWord, srcRead_of_some hlo, srcRead_of_none hhi]

theorem exec_pfet_of_bad_size (h : s.srcLen ≠ 32768) : exec (.pfet p c) s = .next (raiseError .fmtSize s) := by
  rw [exec, execPfet, checkSize_bad h]

/-- Past its check PFET reads its palette word and nothing else. -/
theorem exec_pfet_of_checked (h : s.srcLen = 32768) :
    exec (.pfet p c) s = withRead (palWord s p c) s fun e => completeCommand (setResult (resultOfEntry e) s) := by
  rw [exec, execPfet, checkSize_ok h]

end

/-- R86: the RESULT word of a palette word's two bytes. -/
theorem resultOfEntry_bytes (b0 b1 : Byte) :
    resultOfEntry (entryOfBytes b0 b1) = b0.setWidth 32 ||| b1.setWidth 32 <<< 8 := by
  rw [resultOfEntry, entryOfBytes_setWidth]

/-- Settles O32: the check ends the command, and past it the two reads decide, the low byte's first. -/
theorem pfetFetchesThePaletteWord : Obligations.PfetFetchesThePaletteWord := by
  refine ⟨illegalWith_of_mask (Instr.pfet 0 0).row_mem rfl rfl, fun p c => ⟨rfl, fun s => ⟨exec_pfet_of_bad_size,
    fun hsize => ⟨fun b0 b1 hlo hhi => ?written, fun hlo => ?unwritten_lo, fun b0 hlo hhi => ?unwritten_hi⟩⟩⟩⟩
  case written =>
    rw [exec_pfet_of_checked hsize, palWord_of_bytes hlo hhi, withRead_ok, resultOfEntry_bytes]
    rfl
  case unwritten_lo =>
    rw [exec_pfet_of_checked hsize, palWord_of_unwritten_lo hlo, withRead_error]
    rfl
  case unwritten_hi =>
    rw [exec_pfet_of_checked hsize, palWord_of_unwritten_hi hlo hhi, withRead_error]
    rfl

/-! ## ASMB (R169) -/

theorem exec_asmb (e : Entry) (s : State) :
    exec (.asmb e) s = .next (completeCommand (setResult (resultOfRgb (assemble s.config.layout e)) s)) := rfl

/-- R86, R164: the RESULT word of an assembled colour. -/
theorem resultOfRgb_assemble_toNat (l : Config.ChanLayout) (e : Entry) :
    (resultOfRgb (assemble l e)).toNat =
      e.toNat / 2 ^ l.rLo.bit % 16 * 17 + e.toNat / 2 ^ l.gLo.bit % 16 * 17 * 2 ^ 8 +
        e.toNat / 2 ^ l.bLo.bit % 16 * 17 * 2 ^ 16 + 255 * 2 ^ 24 := by
  simp only [resultOfRgb_toNat, assemble, widen_toNat, channel_toNat]

/-- Settles O33: ASMB has no check and no read, so it completes with the assembled colour. -/
theorem asmbAssemblesTheColour : Obligations.AsmbAssemblesTheColour :=
  ⟨illegalWith_of_mask (Instr.asmb 0).row_mem rfl rfl, fun e => ⟨rfl, fun s =>
    ⟨resultOfRgb (assemble s.config.layout e), exec_asmb e s, resultOfRgb_assemble_toNat s.config.layout e⟩⟩⟩

end Sys2Proof.Machine
end

section
/-! PROOFS of the statements about the pixel function, the pixel step, and the first steps of DPIX, DLIN and DFRM
(44_pipeline.md, sections 1 and 2). -/

namespace Sys2Proof.Machine

/-! ## The colour of a pixel and its four bytes (R190, R191) -/

section
variable {s : State} {y x : Nat}

theorem pixelColour_of_unwritten_selector (h : Cells.read s.src (scbAddr y) = none) :
    pixelColour s y x = .error (.unwrittenSrc (scbAddr y)) := by
  simp only [pixelColour, pidx, srcRead_of_none h]

theorem pixelColour_of_unwritten_bitmap {scb : Byte} (hscb : Cells.read s.src (scbAddr y) = some scb)
    (h : Cells.read s.src (byteIndex y x) = none) : pixelColour s y x = .error (.unwrittenSrc (byteIndex y x)) := by
  simp only [pixelColour, pidx, cidx, srcRead_of_some hscb, srcRead_of_none h]

/-- Once the selector and the bitmap byte are read, the palette word they name decides. -/
theorem pixelColour_of_indices {scb sb : Byte} (hscb : Cells.read s.src (scbAddr y) = some scb)
    (hsb : Cells.read s.src (byteIndex y x) = some sb) :
    pixelColour s y x = (palWord s (selectorIndex scb) (nibbleOf sb x)).map (assemble s.config.layout) := by
  simp only [pixelColour, pidx, cidx, srcRead_of_some hscb, srcRead_of_some hsb]
  cases palWord s (selectorIndex scb) (nibbleOf sb x) <;> rfl

/-- A pixel that has a colour has its four bytes written; `pixelColour_of_bytes` is the converse. -/
theorem bytes_of_pixelColour {px : Rgb} (h : pixelColour s y x = .ok px) :
    ∃ scb sb b0 b1, Cells.read s.src (scbAddr y) = some scb ∧ Cells.read s.src (byteIndex y x) = some sb ∧
      Cells.read s.src (paletteLoAddr (selectorIndex scb) (nibbleOf sb x)) = some b0 ∧
      Cells.read s.src (paletteHiAddr (selectorIndex scb) (nibbleOf sb x)) = some b1 := by
  obtain ⟨scb, hscb⟩ := Option.ne_none_iff_exists'.1 fun hn : Cells.read s.src (scbAddr y) = none =>
    nomatch h.symm.trans (pixelColour_of_unwritten_selector hn)
  obtain ⟨sb, hsb⟩ := Option.ne_none_iff_exists'.1 fun hn : Cells.read s.src (byteIndex y x) = none =>
    nomatch h.symm.trans (pixelColour_of_unwritten_bitmap hscb hn)
  rw [pixelColour_of_indices hscb hsb] at h
  obtain ⟨b0, hlo⟩ := Option.ne_none_iff_exists'.1
    fun hn : Cells.read s.src (paletteLoAddr (selectorIndex scb) (nibbleOf sb x)) = none => by
      rw [palWord_of_unwritten_lo hn] at h; cases h
  obtain ⟨b1, hhi⟩ := Option.ne_none_iff_exists'.1
    fun hn : Cells.read s.src (paletteHiAddr (selectorIndex scb) (nibbleOf sb x)) = none => by
      rw [palWord_of_unwritten_hi hlo hn] at h; cases h
  exact ⟨scb, sb, b0, b1, hscb, hsb, hlo, hhi⟩

end

theorem srcRead_eq_of_read {s t : State} {a : Nat} (h : Cells.read t.src a = Cells.read s.src a) :
    srcRead t a = srcRead s a := by
  unfold srcRead; rw [h]

/-- A palette word is its two bytes'. -/
theorem palWord_eq_of_reads {s t : State} {p c : Nibble}
    (hlo : Cells.read t.src (paletteLoAddr p c) = Cells.read s.src (paletteLoAddr p c))
    (hhi : Cells.read t.src (paletteHiAddr p c) = Cells.read s.src (paletteHiAddr p c)) :
    palWord t p c = palWord s p c := by
  simp only [palWord, srcRead_eq_of_read hlo, srcRead_eq_of_read hhi]

/-- Settles O47: each read that fails ends the pixel, and the palette word's address is the one that the first two bytes
name. -/
theorem pixelReadsFourBytesInOrder : Obligations.PixelReadsFourBytesInOrder := by
  refine fun s y x => ⟨pixelColour_of_unwritten_selector, fun scb hscb => ⟨pixelColour_of_unwritten_bitmap hscb,
    fun sb hsb => ?_⟩⟩
  intro k
  have hloAddr : paletteLoAddr (selectorIndex scb) (nibbleOf sb x) = 32256 + 2 * k := paletteLoAddr_of_bytes scb sb x
  have hcolour := pixelColour_of_indices hscb hsb
  rw [← hloAddr]
  refine ⟨fun hlo => ?low, fun b0 hlo hhi => ?high, fun t hconfig hagree => ?nothing_else⟩
  case low => exact hcolour.trans (congrArg _ (palWord_of_unwritten_lo hlo))
  case high => exact hcolour.trans (congrArg _ (palWord_of_unwritten_hi hlo hhi))
  case nothing_else =>
    have hscb' : Cells.read t.src (scbAddr y) = some scb := (hagree _ (.inl rfl)).trans hscb
    have hsb' : Cells.read t.src (byteIndex y x) = some sb := (hagree _ (.inr (.inl rfl))).trans hsb
    have hword := palWord_eq_of_reads (hagree _ (.inr (.inr (.inl rfl)))) (hagree _ (.inr (.inr (.inr rfl))))
    rw [pixelColour_of_indices hscb' hsb', hword, hconfig, hcolour]

/-- Settles O46: the four bytes are the image's, and each stage is its arithmetic. -/
theorem pixelRefinesTheImageFunction : Obligations.PixelRefinesTheImageFunction := by
  intro s img y x hy hx himg
  have hbyte : ∀ a, a < 32768 → ∃ b, Cells.read s.src a = some b ∧ b.toNat = img a :=
    fun a ha => Option.map_eq_some_iff.1 (himg a ha)
  obtain ⟨scb, hscb, hscbNat⟩ := hbyte (scbAddr y) (by have := scbAddr_in_range hy; omega)
  obtain ⟨sb, hsb, hsbNat⟩ := hbyte (byteIndex y x) (by have := byteIndex_le hy hx; omega)
  have hrange := (paletteAddrs_in_range (selectorIndex scb) (nibbleOf sb x)).2
  obtain ⟨b0, hlo, hloNat⟩ := hbyte _ (Nat.lt_succ_of_lt hrange)
  obtain ⟨b1, hhi, hhiNat⟩ := hbyte _ (Nat.lt_succ_of_le hrange)
  refine ⟨_, pixelColour_of_bytes hscb hsb hlo hhi, ?_⟩
  rw [assemble_nats, entryOfBytes_toNat, hloNat, hhiNat, paletteHiAddr, paletteLoAddr_of_bytes, hscbNat, hsbNat]
  rfl

/-! ## The pixel step (R195) -/

/-- Settles O49: the pixel is written, and retiring it leaves PEND without it or ends the command. -/
theorem pixelStepWritesOnePendingPixel : Obligations.PixelStepWritesOnePendingPixel := by
  intro s p px pick ts hbusy hcur hstuck hf ht hp hpx
  have hstep := step_pixel hbusy hcur hstuck hf ht hp
  rw [hpx, withRead_ok] at hstep
  refine ⟨Cells.write s.out (pixelNumber p) px, _, rfl, Cells.read_write_same _ _ _,
    fun _ hk => Cells.read_write_other _ _ hk, fun hmore => ?more, fun hlast => ?last⟩
  case more => exact hstep.trans (congrArg Host.Outcome.next (retirePixel_more hmore))
  case last => exact hstep.trans (congrArg Host.Outcome.next (retirePixel_last hlast))

/-- Settles O50: the turn that names the pixel's own position in PEND takes it. -/
theorem everyPendingPixelMayComeNext : Obligations.EveryPendingPixelMayComeNext := by
  intro s p px hbusy hcur hstuck hf hp hpx
  have hlt : s.pend.idxOf p < s.pend.length := List.idxOf_lt_length_iff.2 hp
  have hmod : s.pend.idxOf p % s.pend.length = s.pend.idxOf p := Nat.mod_eq_of_lt hlt
  have hpick : s.pend[s.pend.idxOf p % s.pend.length]? = some p := by
    rw [hmod, List.getElem?_eq_getElem hlt, List.getElem_idxOf]
  refine ⟨s.pend.idxOf p, fun ts => ?_⟩
  obtain ⟨out, rest, hrest, hcell, -, hmore, hlast⟩ := pixelStepWritesOnePendingPixel
    { s with turns := .engine (s.pend.idxOf p) :: ts } p px (s.pend.idxOf p) ts hbusy hcur hstuck hf rfl hpick hpx
  have herase : rest = s.pend.erase p := by
    rw [hrest, List.erase_eq_eraseIdx_of_idxOf rfl]
    exact congrArg s.pend.eraseIdx hmod
  by_cases hempty : rest = []
  · exact ⟨_, hlast hempty, hcell, hempty.symm.trans herase⟩
  · exact ⟨_, hmore hempty, hcell, herase⟩

/-! ## DPIX (R192) -/

section
variable {y : BitVec 8} {x : BitVec 9} {s : State}

theorem exec_dpix_of_bad_position (h : 200 ≤ y.toNat ∨ 320 ≤ x.toNat) :
    exec (.dpix y x) s = .next (raiseError .argRange s) := by
  rw [exec, execDpix, legalYX_of_ge h, checkArgs_false]

theorem exec_dpix_of_bad_size (hy : y.toNat < 200) (hx : x.toNat < 320) (h : s.srcLen ≠ 32768) :
    exec (.dpix y x) s = .next (raiseError .fmtSize s) := by
  rw [exec, execDpix, legalYX_of_lt hy hx, checkArgs_true, checkSize_bad h]

/-- Past its checks DPIX reads its pixel's colour. -/
theorem exec_dpix_of_checked (hy : y.toNat < 200) (hx : x.toNat < 320) (h : s.srcLen = 32768) :
    exec (.dpix y x) s = withRead (pixelColour s y.toNat x.toNat) s fun px =>
      completeCommand (setResult (resultOfRgb px) (outWrite (pixelNumber ⟨y.toNat, x.toNat⟩) px s)) := by
  rw [exec, execDpix, legalYX_of_lt hy hx, checkArgs_true, checkSize_ok h]

end

/-- R86: the RESULT word of a colour, its constant byte written as a field. -/
theorem resultOfRgb_eq (px : Rgb) :
    resultOfRgb px =
      px.r.setWidth 32 ||| px.g.setWidth 32 <<< 8 ||| px.b.setWidth 32 <<< 16 ||| 0xFF#32 <<< 24 := rfl

/-- Settles O34: each check ends the command, and past them the pixel's colour decides. -/
theorem dpixDecodesOnePixel : Obligations.DpixDecodesOnePixel := by
  refine ⟨illegalWith_of_mask (Instr.dpix 0 0).row_mem rfl rfl, fun y x => ⟨rfl, fun s =>
    ⟨exec_dpix_of_bad_position, exec_dpix_of_bad_size, fun hy hx hsize =>
      ⟨fun px hpx => ?colour, fun f hf => ?unwritten⟩⟩⟩⟩
  case colour =>
    refine ⟨Cells.write s.out (pixelNumber ⟨y.toNat, x.toNat⟩) px, ?_, Cells.read_write_same _ _ _,
      fun _ hk => Cells.read_write_other _ _ hk⟩
    rw [exec_dpix_of_checked hy hx hsize, hpx, withRead_ok, resultOfRgb_eq]
    rfl
  case unwritten => rw [exec_dpix_of_checked hy hx hsize, hf, withRead_error]

/-- All that DPIX can do. -/
inductive DpixEffect (y : BitVec 8) (x : BitVec 9) (s : State) : State → Prop where
  | raised (e : ErrCode) : DpixEffect y x s (raiseError e s)
  | unwritten (f : Fault) : DpixEffect y x s (addFault f s)
  | decoded (px : Rgb) :
      DpixEffect y x s (completeCommand (setResult (resultOfRgb px) (outWrite (pixelNumber ⟨y.toNat, x.toNat⟩) px s)))

theorem dpix_effect (y : BitVec 8) (x : BitVec 9) (s : State) :
    ∃ t, exec (.dpix y x) s = .next t ∧ DpixEffect y x s t := by
  by_cases hlegal : y.toNat < 200 ∧ x.toNat < 320
  · obtain ⟨hy, hx⟩ := hlegal
    by_cases hsize : s.srcLen = 32768
    · rw [exec_dpix_of_checked hy hx hsize]
      cases pixelColour s y.toNat x.toNat with
      | ok px => exact ⟨_, rfl, .decoded px⟩
      | error f => exact ⟨_, rfl, .unwritten f⟩
    · exact ⟨_, exec_dpix_of_bad_size hy hx hsize, .raised .fmtSize⟩
  · exact ⟨_, exec_dpix_of_bad_position (by omega), .raised .argRange⟩

/-- Settles O42: only a decoded pixel stores, and its command ends with neither a new error nor BUSY. -/
theorem dpixFrame : Obligations.DpixFrame := by
  intro y x s t h
  obtain ⟨u, hu, heffect⟩ := dpix_effect y x s
  obtain rfl : u = t := Host.Outcome.next.inj (hu.symm.trans h)
  cases heffect with
  | raised e => exact ⟨keepsInputs_of_commandOver s _, rfl, fun _ _ => rfl, fun _ => ⟨rfl, fun _ => rfl⟩⟩
  | unwritten f =>
    have hout : ∀ k, Cells.read (addFault f s).out k = Cells.read s.out k := fun _ => by rw [addFault_out]
    exact ⟨keepsInputs_addFault f s, by rw [addFault_status], fun k _ => hout k, fun _ => ⟨addFault_result s f, hout⟩⟩
  | decoded px =>
    refine ⟨⟨fun _ => rfl, rfl, rfl, rfl, rfl, rfl, rfl⟩, rfl, fun _ hk => Cells.read_write_other _ _ hk, ?_⟩
    rintro (⟨herr, hnone⟩ | hbusy)
    · exact absurd (herr.symm.trans hnone) nofun
    · exact absurd hbusy nofun

/-! ## The first steps of DLIN and DFRM (R193, R194, R196) -/

section
variable {y : BitVec 8} {s : State}

theorem exec_dlin_of_bad_row (h : 200 ≤ y.toNat) : exec (.dlin y) s = .next (raiseError .argRange s) := by
  rw [exec, execDlin, legalY_of_ge h, checkArgs_false]

theorem exec_dlin_of_bad_size (hy : y.toNat < 200) (h : s.srcLen ≠ 32768) :
    exec (.dlin y) s = .next (raiseError .fmtSize s) := by
  rw [exec, execDlin, legalY_of_lt hy, checkArgs_true, checkSize_bad h]

theorem exec_dlin_of_checked (hy : y.toNat < 200) (h : s.srcLen = 32768) :
    exec (.dlin y) s = .next (setPend (rowPixels y.toNat) s) := by
  rw [exec, execDlin, legalY_of_lt hy, checkArgs_true, checkSize_ok h]

theorem exec_dfrm_of_bad_size (h : s.srcLen ≠ 32768) : exec .dfrm s = .next (raiseError .fmtSize s) :=
  checkSize_bad h _

theorem exec_dfrm_of_size (h : s.srcLen = 32768) : exec .dfrm s = .next (setPend framePixels s) :=
  checkSize_ok h _

end

/-- Settles O35: the checks end the command, and past them PEND is the row. -/
theorem dlinFirstStepFillsPend : Obligations.DlinFirstStepFillsPend :=
  ⟨illegalWith_of_mask (Instr.dlin 0).row_mem rfl rfl, fun y => ⟨rfl, fun _ =>
    ⟨exec_dlin_of_bad_row, exec_dlin_of_bad_size, fun hy hsize => ⟨rowPixels y.toNat, exec_dlin_of_checked hy hsize,
      rowPixels_nodup _, length_rowPixels _, fun _ => mem_rowPixels⟩⟩⟩⟩

/-- Settles O36: the length is all that DFRM checks, and then PEND is the frame. -/
theorem dfrmFirstStepFillsPend : Obligations.DfrmFirstStepFillsPend :=
  ⟨rfl, illegalWith_of_mask Instr.dfrm.row_mem rfl rfl, fun _ =>
    ⟨exec_dfrm_of_bad_size, fun hsize => ⟨framePixels, exec_dfrm_of_size hsize, framePixels_nodup, length_framePixels,
      fun _ => mem_framePixels⟩⟩⟩

/-- All that the first step of DLIN or DFRM can do. -/
inductive FillEffect (s : State) : State → Prop where
  | raised (e : ErrCode) : FillEffect s (raiseError e s)
  | pending (ps : List Pixel) : FillEffect s (setPend ps s)

theorem fill_effect {i : Instr} (s : State) (hi : (∃ y, i = .dlin y) ∨ i = .dfrm) :
    ∃ t, exec i s = .next t ∧ FillEffect s t := by
  obtain ⟨y, rfl⟩ | rfl := hi
  · by_cases hy : y.toNat < 200
    · by_cases hsize : s.srcLen = 32768
      · exact ⟨_, exec_dlin_of_checked hy hsize, .pending _⟩
      · exact ⟨_, exec_dlin_of_bad_size hy hsize, .raised .fmtSize⟩
    · exact ⟨_, exec_dlin_of_bad_row (Nat.le_of_not_lt hy), .raised .argRange⟩
  · by_cases hsize : s.srcLen = 32768
    · exact ⟨_, exec_dfrm_of_size hsize, .pending _⟩
    · exact ⟨_, exec_dfrm_of_bad_size hsize, .raised .fmtSize⟩

/-- Settles O43: an error touches STATUS, CUR and PEND, and pending positions touch PEND alone. -/
theorem lineAndFrameFirstStepFrame : Obligations.LineAndFrameFirstStepFrame := by
  intro i s t hi h
  obtain ⟨u, hu, heffect⟩ := fill_effect s hi
  obtain rfl : u = t := Host.Outcome.next.inj (hu.symm.trans h)
  cases heffect with
  | raised e =>
    exact ⟨keepsInputs_of_commandOver s _, fun _ => rfl, rfl, rfl, rfl, rfl, .inr ⟨rfl, rfl, rfl, rfl⟩⟩
  | pending ps =>
    exact ⟨⟨fun _ => rfl, rfl, rfl, rfl, rfl, rfl, rfl⟩, fun _ => rfl, rfl, rfl, rfl, rfl, .inl ⟨rfl, rfl⟩⟩

end Sys2Proof.Machine
end

section
/-! PROOFS of the statements about whole lines and frames (44_pipeline.md, section 3): what DLIN and DFRM leave in OUT, and
that neither the order of the pixel steps nor another row's bytes matter. -/

namespace Sys2Proof.Machine

/-! ## DLIN and DFRM from the accepted word on (R193, R194, R276) -/

theorem firstStep_dlin {s : State} {y : BitVec 8} (hy : y.toNat < 200) (hl : s.srcLen = 32768) :
    firstStep (encode (.dlin y)) s = .next (setPend (rowPixels y.toNat) s) := by
  rw [firstStep_of_decode (decode_encode _), exec_dlin_of_checked hy hl]

/-- DLIN runs in 321 engine steps to a completed command, with the row's pixels written. -/
theorem Accepted.run_dlin {s : State} {y : BitVec 8} (h : Accepted (encode (.dlin y)) s) (hy : y.toNat < 200)
    (hl : s.srcLen = 32768) (hr : ∀ x, x < 320 → Readable s y.toNat x) (hm : EngineMoves 321 s) :
    ∃ out d, Host.Core.run Sys2Proof.core 321 s =
        .next (ended { s with out := out, turns := s.turns.drop 321, draws := d }) ∧
      Painted s (rowPixels y.toNat) out := by
  refine h.run_pixels (fun _ => firstStep_dlin hy hl) (length_rowPixels _) (rowPixels_ne_nil _)
    (fun _ hp => (mem_rowPixels.1 hp).2) (fun p hp => ?_) hm
  obtain ⟨hrow, hx⟩ := mem_rowPixels.1 hp
  rw [hrow]
  exact hr p.x hx

/-- Settles O51: the row's positions are written and only they; their cells are the row's 320. -/
theorem dlinDecodesTheRow : Obligations.DlinDecodesTheRow := by
  intro s y hacc hy hl hr hm
  obtain ⟨out, d, hrun, hpainted⟩ := hacc.run_dlin hy hl hr hm
  refine ⟨_, hrun, fun x px hx hpx => ?row, fun k hk => ?other, rfl⟩
  case row => exact hpainted.written ⟨y.toNat, x⟩ (mem_rowPixels.2 ⟨rfl, hx⟩) px hpx
  case other =>
    refine hpainted.kept k fun p hp => ?_
    obtain ⟨hrow, hx⟩ := mem_rowPixels.1 hp
    simp only [pixelNumber, Config.width]
    omega

/-- Settles O52: all positions are written, and their cells are the first 64,000. -/
theorem dfrmDecodesTheFrame : Obligations.DfrmDecodesTheFrame := by
  intro s hacc hl hr hm
  obtain ⟨out, d, hrun, hpainted⟩ := hacc.run_dfrm hl hr hm
  refine ⟨_, hrun, fun y x px hy hx hpx => ?frame, fun k hk => ?other, rfl⟩
  case frame => exact hpainted.written ⟨y, x⟩ (mem_framePixels.2 ⟨hy, hx⟩) px hpx
  case other =>
    refine hpainted.kept k fun p hp => ?_
    obtain ⟨hy, hx⟩ := mem_framePixels.1 hp
    exact Nat.ne_of_lt (Nat.lt_of_lt_of_le (pixelNumber_lt hy hx) hk)

/-! ## OUT stays canonical -/

/-- OUT is canonical, and every pending pixel's cell is one of its 64,000: the part of `Invariant` that keeps OUT canonical
from any state on, whatever STATUS and SRC hold. -/
structure CanonicalOut (s : State) : Prop where
  out_wf : Raster.wf s.out = true
  pend_in_raster : ∀ p ∈ s.pend, p.y < 200 ∧ p.x < 320

theorem CanonicalOut.congr {s t : State} (h : CanonicalOut s) (hout : t.out = s.out) (hpend : t.pend = s.pend) :
    CanonicalOut t where
  out_wf := hout ▸ h.out_wf
  pend_in_raster := hpend ▸ h.pend_in_raster

/-- A state with nothing pending. -/
theorem CanonicalOut.of_no_pend {s : State} (hout : Raster.wf s.out = true) (hpend : s.pend = []) : CanonicalOut s where
  out_wf := hout
  pend_in_raster _ hp := absurd (hpend ▸ hp) List.not_mem_nil

theorem CanonicalOut.addFault {s : State} (h : CanonicalOut s) (f : Fault) : CanonicalOut (addFault f s) :=
  h.congr (addFault_out s f) (addFault_pend s f)

theorem CanonicalOut.recorded {s u : State} (h : CanonicalOut s) (hu : Recorded s u) : CanonicalOut u := by
  cases hu with
  | nothing => exact h
  | record f => exact h.addFault f

theorem HostEffect.keeps_canonicalOut {s t : State} (he : HostEffect s t) (h : CanonicalOut s) : CanonicalOut t := by
  cases he with
  | recorded hu => exact h.recorded hu
  | read hu | srcWritten hu | lengthWritten hu => exact (h.recorded hu).congr rfl rfl
  | accepted | overrun => exact h.congr rfl rfl
  | reset => exact .of_no_pend (resetBlock_out_wf s) rfl

theorem ExecEffect.keeps_canonicalOut {i : Instr} {s t : State} (he : ExecEffect i s t) (h : CanonicalOut s) :
    CanonicalOut t := by
  cases he with
  | raised | completed | acknowledged | returned => exact .of_no_pend h.out_wf rfl
  | unwritten a => exact h.addFault _
  | decodedPixel k px hk => exact .of_no_pend (outWrite_keeps_wf px h.out_wf hk) rfl
  | pending => exact ⟨h.out_wf, fun _ => mem_commandPixels⟩

theorem CanonicalOut.retirePixel {s : State} (h : CanonicalOut s) (n : Nat) : CanonicalOut (retirePixel n s) := by
  unfold Machine.retirePixel
  split
  · exact .of_no_pend h.out_wf rfl
  · exact ⟨h.out_wf, fun p hp => h.pend_in_raster p (List.mem_of_mem_eraseIdx hp)⟩

theorem EngineEffect.keeps_canonicalOut {s t : State} (he : EngineEffect s t) (h : CanonicalOut s) :
    CanonicalOut t := by
  cases he with
  | idle => exact h
  | illegal => exact .of_no_pend h.out_wf rfl
  | first _ _ _ _ _ _ _ hx => exact hx.keeps_canonicalOut h
  | unwritten a => exact h.addFault _
  | pixel n p px _ hn =>
    obtain ⟨hy, hx⟩ := h.pend_in_raster p (List.mem_of_getElem? hn)
    have hwritten : CanonicalOut (outWrite (pixelNumber p) px s) :=
      ⟨outWrite_keeps_wf px h.out_wf (pixelNumber_lt hy hx), h.pend_in_raster⟩
    exact hwritten.retirePixel n

theorem run_keeps_canonicalOut {n : Nat} {s t : State} (hrun : Host.Core.run Sys2Proof.core n s = .next t)
    (h : CanonicalOut s) : CanonicalOut t :=
  run_keeps (fun _ _ hs hst => step_keeps (fun _ _ _ _ h => h.congr rfl rfl) (fun _ _ he => he.keeps_canonicalOut)
    (fun _ _ he => he.keeps_canonicalOut) hst hs) n h hrun

/-! ## The order of the pixel steps (R197, R198) -/

theorem Painted.congr {s u : State} {ps : List Pixel} {out : Raster} (h : Painted u ps out) (hsrc : u.src = s.src)
    (hconfig : u.config = s.config) (hout : u.out = s.out) : Painted s ps out where
  written p hp px hpx := h.written p hp px ((pixelColour_congr hsrc hconfig p.y p.x).trans hpx)
  kept k hk := by rw [h.kept k hk, hout]

/-- What a set of readable pixels leaves in OUT is determined. -/
theorem Painted.read_unique {s : State} {ps : List Pixel} {out out' : Raster} (h : Painted s ps out)
    (h' : Painted s ps out') (hr : ∀ p ∈ ps, Readable s p.y p.x) (k : Nat) : Cells.read out k = Cells.read out' k := by
  by_cases hk : ∃ p ∈ ps, pixelNumber p = k
  · obtain ⟨p, hp, rfl⟩ := hk
    obtain ⟨px, hpx⟩ := hr p hp
    rw [h.written p hp px hpx, h'.written p hp px hpx]
  · have hother : ∀ p ∈ ps, pixelNumber p ≠ k := fun p hp he => hk ⟨p, hp, he⟩
    rw [h.kept k hother, h'.kept k hother]

/-- Settles O53: both runs paint the frame's pixels of one SRC, so their OUTs read alike; and canonical memories that read
alike are the same data. -/
theorem pixelOrderDoesNotMatter : Obligations.PixelOrderDoesNotMatter := by
  intro s u t v hsame hwf hacc hl hr hms hmu hrunt hrunv
  obtain ⟨turns, draws, rfl⟩ : ∃ turns draws, u = { s with turns := turns, draws := draws } := ⟨_, _, hsame.symm⟩
  have haccu : Accepted (encode .dfrm) { s with turns := turns, draws := draws } :=
    ⟨hacc.busy, hacc.cur_eq, hacc.pend_eq, hacc.not_stuck, hacc.not_refused⟩
  obtain ⟨out, d, hrun, hpainted⟩ := hacc.run_dfrm hl hr hms
  obtain ⟨out', d', hrun', hpainted'⟩ := haccu.run_dfrm hl hr hmu
  have htwf := (run_keeps_canonicalOut hrunt (.of_no_pend hwf hacc.pend_eq)).out_wf
  have hvwf := (run_keeps_canonicalOut hrunv (.of_no_pend hwf hacc.pend_eq)).out_wf
  obtain rfl := Host.Outcome.next.inj (hrun.symm.trans hrunt)
  obtain rfl := Host.Outcome.next.inj (hrun'.symm.trans hrunv)
  obtain rfl : out = out' := Cells.ext htwf hvwf <|
    hpainted.read_unique (hpainted'.congr rfl rfl rfl) fun p hp =>
      hr p.y p.x (mem_framePixels.1 hp).1 (mem_framePixels.1 hp).2
  rfl

/-! ## A row is its own bytes' (R199) -/

/-- Two images that agree on a row's bitmap bytes, its selector byte and the palettes give the row the same colours. -/
theorem pixelColour_of_same_row_bytes {s u : State} {y x : Nat} {px : Rgb} (hx : x < 320)
    (hlayout : s.config.layout = u.config.layout)
    (hsrc : ∀ a, y * 160 ≤ a ∧ a < y * 160 + 160 ∨ a = 32000 + y ∨ 32256 ≤ a ∧ a < 32768 →
      Cells.read s.src a = Cells.read u.src a)
    (h : pixelColour s y x = .ok px) : pixelColour u y x = .ok px := by
  obtain ⟨scb, sb, b0, b1, hscb, hsb, hlo, hhi⟩ := bytes_of_pixelColour h
  have hpal := paletteAddrs_in_range (selectorIndex scb) (nibbleOf sb x)
  have hnext : paletteHiAddr (selectorIndex scb) (nibbleOf sb x) =
    paletteLoAddr (selectorIndex scb) (nibbleOf sb x) + 1 := rfl
  have hbitmap : y * 160 ≤ byteIndex y x ∧ byteIndex y x < y * 160 + 160 := by
    simp only [byteIndex, Config.rowBytes]
    omega
  rw [← h, pixelColour_of_bytes hscb hsb hlo hhi, hlayout]
  exact pixelColour_of_bytes ((hsrc _ (.inr (.inl rfl))).symm.trans hscb) ((hsrc _ (.inl hbitmap)).symm.trans hsb)
    ((hsrc _ (by omega)).symm.trans hlo) ((hsrc _ (by omega)).symm.trans hhi)

/-- Settles O54: DFRM and DLIN both leave the row's colours in its cells, and the colours agree. -/
theorem rowsAreIndependent : Obligations.RowsAreIndependent := by
  intro s u t v y hy haccs hls hrs hms haccu hlu hru hmu hlayout hsrc hrunt hrunv x hx
  obtain ⟨out, d, hrun, hframe⟩ := haccs.run_dfrm hls hrs hms
  obtain ⟨out', d', hrun', hrow⟩ := haccu.run_dlin hy hlu hru hmu
  obtain rfl := Host.Outcome.next.inj (hrun.symm.trans hrunt)
  obtain rfl := Host.Outcome.next.inj (hrun'.symm.trans hrunv)
  obtain ⟨px, hpx⟩ := hrs y.toNat x hy hx
  have hframeCell := hframe.written ⟨y.toNat, x⟩ (mem_framePixels.2 ⟨hy, hx⟩) px hpx
  have hrowCell := hrow.written ⟨y.toNat, x⟩ (mem_rowPixels.2 ⟨rfl, hx⟩) px
    (pixelColour_of_same_row_bytes hx hlayout hsrc hpx)
  exact hframeCell.trans hrowCell.symm

/-! ## The all-zero image (R200) -/

theorem selectorIndex_zero : selectorIndex 0 = 0 := rfl

theorem nibbleOf_zero (x : Nat) : nibbleOf 0 x = 0 := by
  unfold nibbleOf; split <;> rfl

theorem channel_zero (pos : Config.NibblePos) : channel 0 pos = 0 := by
  cases pos <;> rfl

/-- Entry 0 is black under every layout. -/
theorem assemble_zero (l : Config.ChanLayout) : assemble l 0 = ⟨0, 0, 0⟩ := by
  simp only [assemble, channel_zero]
  rfl

/-- A pixel whose selector and bitmap byte are 0 has the colour of palette word 0. -/
theorem pixelColour_of_zero_bytes {s : State} {y x : Nat} (hscb : Cells.read s.src (scbAddr y) = some 0)
    (hsb : Cells.read s.src (byteIndex y x) = some 0) (hlo : Cells.read s.src 32256 = some 0)
    (hhi : Cells.read s.src 32257 = some 0) : pixelColour s y x = .ok ⟨0, 0, 0⟩ := by
  have hword : palWord s (selectorIndex 0) (nibbleOf 0 x) = .ok 0 := by
    rw [selectorIndex_zero, nibbleOf_zero]
    exact palWord_of_bytes (p := 0) (c := 0) hlo hhi
  rw [pixelColour_of_indices hscb hsb, hword, Except.map, assemble_zero]

/-- Settles O55: every pixel is black, and every cell is some pixel's. -/
theorem allZeroImageIsBlack : Obligations.AllZeroImageIsBlack := by
  intro s hacc hl hm hbitmap hselectors hlo hhi
  have hblack : ∀ y x, y < 200 → x < 320 → pixelColour s y x = .ok ⟨0, 0, 0⟩ := fun y x hy hx =>
    pixelColour_of_zero_bytes (hselectors y hy) (hbitmap _ (Nat.lt_succ_of_le (byteIndex_le hy hx))) hlo hhi
  obtain ⟨out, d, hrun, hpainted⟩ := hacc.run_dfrm hl (fun y x hy hx => ⟨_, hblack y x hy hx⟩) hm
  refine ⟨_, hrun, fun k hk => ?_⟩
  have hy : k / 320 < 200 := by omega
  have hx : k % 320 < 320 := Nat.mod_lt k (by decide)
  have hcell : pixelNumber ⟨k / 320, k % 320⟩ = k := Nat.div_add_mod' k 320
  have hwritten := hpainted.written ⟨k / 320, k % 320⟩ (mem_framePixels.2 ⟨hy, hx⟩) _ (hblack _ _ hy hx)
  rwa [hcell] at hwritten

end Sys2Proof.Machine
end

section
/-! PROOFS of the statements about errors (60_exceptions.md): how a command ends, which error it reports, and what an error
leaves alone. -/

namespace Sys2Proof.Machine

/-! ## How a command ends (R103, R221) -/

theorem raiseError_eq (e : ErrCode) (s : State) : raiseError e s = endedWith e.code s := rfl

/-- Settles O25: each end of a command is the state written out; the three errors differ in their code only (R220). -/
theorem completionAndErrorsEndTheCommand : Obligations.CompletionAndErrorsEndTheCommand := fun s =>
  ⟨rfl, rfl, raiseError_eq .fmtSize s, raiseError_eq .illegalCmd s, raiseError_eq .argRange s⟩

/-! ## The order of the checks (R225) -/

/-- The commands that check SRC_LEN: all but NOP, ACK and ASMB (R104, R222). -/
structure ChecksLength (i : Instr) : Prop where
  ne_nop : i ≠ .nop
  ne_ack : i ≠ .ack
  ne_asmb : ∀ e, i ≠ .asmb e

/-- Only commands that check SRC_LEN have illegal operands (R77, R223). -/
theorem checksLength_of_illFormed {i : Instr} (h : i.WellFormed = false) : ChecksLength i where
  ne_nop := by rintro rfl; cases h
  ne_ack := by rintro rfl; cases h
  ne_asmb := by rintro e rfl; cases h

/-- Such a command checks its operands, then SRC_LEN, and only then does its work (R108). -/
theorem exec_checks {i : Instr} (h : ChecksLength i) (s : State) :
    ∃ body, exec i s = checkArgs i.WellFormed s (checkSize s body) := by
  cases i with
  | nop => exact absurd rfl h.ne_nop
  | ack => exact absurd rfl h.ne_ack
  | asmb e => exact absurd rfl (h.ne_asmb e)
  | valid | pfet | dfrm | rscb | unpk | dpix | dlin => exact ⟨_, rfl⟩

theorem exec_of_illFormed {i : Instr} (h : i.WellFormed = false) (s : State) :
    exec i s = .next (raiseError .argRange s) := by
  obtain ⟨body, hexec⟩ := exec_checks (checksLength_of_illFormed h) s
  rw [hexec, h, checkArgs_false]

theorem exec_of_bad_size {i : Instr} {s : State} (hi : ChecksLength i) (h : i.WellFormed = true)
    (hsize : s.srcLen ≠ 32768) : exec i s = .next (raiseError .fmtSize s) := by
  obtain ⟨body, hexec⟩ := exec_checks hi s
  rw [hexec, h, checkArgs_true, checkSize_bad hsize]

/-- Settles O37: an illegal word is not run, and a command that runs checks its operands before SRC_LEN. -/
theorem errorsComeInPriorityOrder : Obligations.ErrorsComeInPriorityOrder := by
  intro s w pick ts hacc hturns
  have hstep := hacc.step_eq hturns
  refine ⟨fun r hd => ?illegal, fun i hd hargs => ?argRange, fun i hd hargs hnop hack hasmb hsize => ?fmtSize⟩
  case illegal => exact hstep.trans (firstStep_of_illegal hd _)
  case argRange => exact hstep.trans ((firstStep_of_decode hd _).trans (exec_of_illFormed hargs _))
  case fmtSize =>
    exact hstep.trans ((firstStep_of_decode hd _).trans (exec_of_bad_size ⟨hnop, hack, hasmb⟩ hargs hsize))

/-! ## Errors are precise (R226) -/

/-- Only `raise` sets ERR. -/
theorem ExecEffect.raised_of_err {i : Instr} {s t : State} (h : ExecEffect i s t) (hs : s.status.err = false)
    (ht : t.status.err = true) : ∃ e, t = raiseError e s := by
  have habsurd : t.status.err = s.status.err → ∃ e, t = raiseError e s := fun heq => by simp [heq, hs] at ht
  cases h with
  | raised e => exact ⟨e, rfl⟩
  | unwritten a => exact habsurd (by rw [addFault_status])
  | completed | acknowledged | returned | decodedPixel | pending => exact habsurd rfl

/-- A first step that sets ERR raises an error and does nothing else. -/
theorem raised_of_firstStep_err {w : Word} {s t : State} (h : firstStep w s = .next t) (hs : s.status.err = false)
    (ht : t.status.err = true) : ∃ e, t = raiseError e s := by
  cases hd : decode w with
  | error r =>
    rw [firstStep_of_illegal hd] at h
    exact ⟨.illegalCmd, (Host.Outcome.next.inj h).symm⟩
  | ok i =>
    obtain ⟨u, hu, heffect⟩ := exec_effect i s
    rw [firstStep_of_decode hd, hu] at h
    obtain rfl : u = t := Host.Outcome.next.inj h
    exact heffect.raised_of_err hs ht

/-- Settles O38: the step raised, and `raise` changes STATUS, CUR and PEND, which was empty already. -/
theorem errorsArePrecise : Obligations.ErrorsArePrecise := by
  intro s t w pick ts hacc hs hturns hstep ht
  rw [hacc.step_eq hturns] at hstep
  obtain ⟨e, rfl⟩ := raised_of_firstStep_err hstep hs ht
  exact ⟨rfl, hacc.pend_eq.symm, rfl, rfl, rfl, fun _ => rfl, fun _ => rfl, rfl, rfl, rfl, rfl⟩

end Sys2Proof.Machine
end

section
/-! PROOFS of the statements about reset, host hazards and the end of a run (70_reset_and_hazards.md). -/

namespace Sys2Proof.Machine

/-! ## Reset (R260) -/

/-- The reset of R260 is the state of R36, but for CONFIG, FAULT and what is no state of the block. -/
theorem resetBlock_eq_reset (s : State) :
    resetBlock s = { State.reset with
      config := s.config, faults := s.faults, prog := s.prog, turns := s.turns, draws := s.draws,
      readData := s.readData } := rfl

/-- After reset BUSY = 0, so a command write is accepted (R101). -/
theorem commandWrite_resetBlock (w : Word) (s : State) :
    commandWrite w (resetBlock s) = acceptCommand w (resetBlock s) :=
  commandWrite_idle w rfl

/-- Settles O9: reset is the state written out, and in it BUSY = 0. -/
theorem hostResetRestoresTheResetState : Obligations.HostResetRestoresTheResetState := by
  intro s
  refine ⟨resetBlock_eq_reset s, fun w => ?_⟩
  have haccept : hostAct (.ctrlWrite 0x00 32 w) (hostAct .reset s) = acceptCommand w (resetBlock s) :=
    (hostAct_commandWrite w (resetBlock s)).trans (commandWrite_resetBlock w s)
  rw [haccept]
  exact ⟨acceptCommand_cur _ w, congrArg Status.busy (acceptCommand_status _ w)⟩

/-! ## Host writes while BUSY = 1 (R270) -/

theorem hostAct_srcWrite_busy {s : State} {a : Nat} (v : Byte) (ha : a < Config.srcSize) (hb : s.status.busy = true) :
    hostAct (.srcWrite a v) s = srcWrite a v (addFault (.hostHazard (.src a)) s) := by
  simp [hostAct, hostSrcWrite, ha, hb]

theorem hostAct_srcLenWrite_busy {s : State} (v : Word) (hb : s.status.busy = true) :
    hostAct (.ctrlWrite 0x08 32 v) s = setSrcLen v (addFault (.hostHazard .srcLen) s) :=
  (hostAct_ctrlWrite v s rfl (by decide)).trans (if_pos hb)

/-- The first `HOST_HAZARD` record of a run is the one that refuses it. -/
theorem refusedBy_addFault_hostHazard {s : State} (g : HazardTarget) (h : refusedBy s = none) :
    refusedBy (addFault (.hostHazard g) s) = some (.hostHazard g) := by
  have hfind : s.faults.find? Fault.isHostHazard = none := h
  rw [refusedBy, addFault_faults, if_neg (refusedBy_eq_none.1 h g), List.find?_append, hfind]
  rfl

theorem refusedBy_congr {s t : State} (h : t.faults = s.faults) : refusedBy t = refusedBy s :=
  congrArg (List.find? Fault.isHostHazard) h

/-- A hazard's record that is the first of its kind is the next step's answer, whatever else the write stored. -/
theorem step_of_first_hazard {s t : State} {g : HazardTarget} (h : t.faults = (addFault (.hostHazard g) s).faults)
    (hs : ∀ g', .hostHazard g' ∉ s.faults) : step t = .fault (.hostHazard g) :=
  step_of_refused ((refusedBy_congr h).trans (refusedBy_addFault_hostHazard g (refusedBy_eq_none.2 hs)))

/-- A run that holds a `HOST_HAZARD` record is refused for such a record. -/
theorem step_of_hazard {s : State} {g : HazardTarget} (h : .hostHazard g ∈ s.faults) :
    ∃ g', .hostHazard g' ∈ s.faults ∧ step s = .fault (.hostHazard g') := by
  cases hr : refusedBy s with
  | none => exact absurd h (refusedBy_eq_none.1 hr g)
  | some f =>
    obtain ⟨g', rfl, hmem⟩ := refusedBy_eq_some hr
    exact ⟨g', hmem, step_of_refused hr⟩

/-- Settles O17: each write adds its record before it stores, and what it stores is not in FAULT. -/
theorem hostWriteWhileBusyIsAHazard : Obligations.HostWriteWhileBusyIsAHazard := by
  refine ⟨fun s a b v hb => ?_, fun _ _ => step_of_hazard⟩
  have hsrc (ha : a < 32768) :
      (hostAct (.srcWrite a b) s).faults = (addFault (.hostHazard (.src a)) s).faults := by
    rw [hostAct_srcWrite_busy b ha hb, srcWrite_faults]
  have hlen : (hostAct (.ctrlWrite 0x08 32 v) s).faults = (addFault (.hostHazard .srcLen) s).faults := by
    rw [hostAct_srcLenWrite_busy v hb, setSrcLen_faults]
  refine ⟨fun ha f => ?_, fun f => ?_, fun hnew => ⟨fun ha => ?_, ?_⟩⟩
  · rw [hsrc ha, mem_addFault_iff]
  · rw [hlen, mem_addFault_iff]
  · exact step_of_first_hazard (hsrc ha) hnew
  · exact step_of_first_hazard hlen hnew

/-! ## The end of a run (R277) -/

theorem engineEnabled_of_idle_or_stuck {s : State} (h : s.status.busy = false ∨ ∃ a, .unwrittenSrc a ∈ s.faults) :
    engineEnabled s = false := by
  rcases h with hidle | ⟨a, hstuck⟩
  · exact engineEnabled_of_idle hidle
  · exact engineEnabled_of_stuck hstuck

/-- Where no agent has a step, the run is at rest. -/
theorem step_at_rest {s : State} (hf : refusedBy s = none) (ht : s.turns = []) (he : engineEnabled s = false)
    (hp : s.prog = []) : step s = restingStep s := by
  simp [step_eq_scheduled hf, scheduledStep, ht, he, hp]

theorem restingStep_of_no_faults {s : State} (h : s.faults = []) : restingStep s = .next s := by
  rw [restingStep, h]

theorem restingStep_of_faults {s : State} {f : Fault} {fs : List Fault} (h : s.faults = f :: fs) :
    restingStep s = .fault f := by
  rw [restingStep, h]

/-- Settles O26: no agent has a step, and a run at rest answers its first record, if it has one. -/
theorem endedRunsRestAndFailedRunsFault : Obligations.EndedRunsRestAndFailedRunsFault := by
  intro s ht
  refine ⟨fun ⟨hp, hb, hnone⟩ => ?ended, fun f fs hf hp hfaults hrest => ?failed⟩
  case ended =>
    have hf : refusedBy s = none := refusedBy_eq_none.2 fun g => by simp [hnone]
    rw [step_at_rest hf ht (engineEnabled_of_idle hb) hp, restingStep_of_no_faults hnone]
  case failed => rw [step_at_rest hf ht (engineEnabled_of_idle_or_stuck hrest) hp, restingStep_of_faults hfaults]

end Sys2Proof.Machine
end
